-- ==== Sys2Proof/Word.lean ====
section
/-! DEFINITION. The words of QRCORE: bytes, 80-bit command words, 40-bit response headers (`00_scope.md` R10,
`30_encoding.md` R81, R86). Quantities the spec treats as numbers (`LEN`, `BYTE_CUR`, `value`, `length`, `cap`, `n`) are
naturals, as R9 and R111 state them. -/

namespace Sys2Proof

/-- "A byte is an integer 0 to 255" (R10); also an element of GF(2^8), bit `i` the coefficient of `x^i` (R150). -/
abbrev Byte := BitVec 8

/-- A command word `CW[79:0]` (R81). -/
abbrev CommandWord := BitVec 80

/-- A response header `RH[39:0]` (R86). -/
abbrev ResponseHeader := BitVec 40

end Sys2Proof
end

