-- ==== Sys2Proof/Config.lean ====
section
/-! DEFINITION. The fixed parameters of the block (`00_scope.md` R8). The open parameters `BUF_MAX` and `GROW` are
arguments of the step and ride in the machine's state (`Machine.Params`); `POW_ZERO_BASE` has no value in a model (R176). -/

namespace Sys2Proof.Config

/-- `POLY`: the reduction polynomial `x^8+x^4+x^3+x^2+1` as a 9-bit integer (R8; `90_conflicts.md` C1). -/
abbrev poly : Nat := 0x11D

/-- `PAD0`: the first fill byte (R8, R125). -/
def pad0 : Byte := 0xEC#8

/-- `PAD1`: the second fill byte (R8, R125). -/
def pad1 : Byte := 0x11#8

/-- `DEFAULT_CAP`: the capacity when create is given none, and after reset (R8, R40). -/
abbrev defaultCap : Nat := 1

/-- `VAL_WIDTH`: bits of the `value` operand in a command word (R8). -/
abbrev valWidth : Nat := 64

/-- `LEN_FIELD`: bits of the `length` operand in a command word (R8). -/
abbrev lenField : Nat := 8

/-- `CAP_FIELD`: bits of the capacity operand of BS.CREATE (R8). -/
abbrev capField : Nat := 32

/-- `N_FIELD`: bits of the exponent operand of GF.POW (R8). -/
abbrev nField : Nat := 32

/-- The largest `BUF_MAX` the 32-bit `VAL` and `CAP` fields of the hardware form allow (R86). -/
abbrev hardwareBufMax : Nat := 2 ^ 32 - 1

end Sys2Proof.Config
end

