-- ==== Sys2Proof/Syntax.lean ====
section
/-! DEFINITION. The thirteen commands of `30_encoding.md` R84, one constructor per row of `opcode_table.json`. Operands
that the spec states over naturals are naturals (`00_scope.md` R9); what a command word can carry is the matter of
`WellFormed` and `Decode`. -/

namespace Sys2Proof

/-- One command with its operands (R84, R90). -/
inductive Instr where
  /-- `BS.CREATE cap` (R112). -/
  | bsCreate (cap : Nat)
  /-- `BS.APPEND value, length` (R118). -/
  | bsAppend (value length : Nat)
  /-- `BS.APPENDA value` (R120). -/
  | bsAppendA (value : Nat)
  /-- `BS.PAD` (R122). -/
  | bsPad
  /-- `BS.FILL` (R125). -/
  | bsFill
  /-- `BS.EXTRACT` (R128). -/
  | bsExtract
  /-- `BS.LEN` (R131). -/
  | bsLen
  /-- `BS.DUMP` (R134). -/
  | bsDump
  /-- `GF.ADD a, b` (R160). -/
  | gfAdd (a b : Byte)
  /-- `GF.SUB a, b` (R163). -/
  | gfSub (a b : Byte)
  /-- `GF.MUL a, b` (R166). -/
  | gfMul (a b : Byte)
  /-- `GF.DIV a, b` (R170). -/
  | gfDiv (a b : Byte)
  /-- `GF.POW x, n` (R174). -/
  | gfPow (x : Byte) (n : Nat)
deriving DecidableEq, Repr

end Sys2Proof
end

