-- ==== Sys2Proof/WellFormed.lean ====
section
/-! DEFINITION. Which commands one command word can carry: every operand fits its field (`00_scope.md` R8,
`30_encoding.md` R83, R90). The bytes `a`, `b`, `x` fit by their type. -/

namespace Sys2Proof

/-- The operands of the command fit the fields of one command word (R8, R83). -/
def Instr.wellFormed : Instr → Bool
  | .bsCreate cap => decide (cap < 2 ^ Config.capField)
  | .bsAppend value length => decide (value < 2 ^ Config.valWidth) && decide (length < 2 ^ Config.lenField)
  | .bsAppendA value => decide (value < 2 ^ Config.valWidth)
  | .bsPad | .bsFill | .bsExtract | .bsLen | .bsDump => true
  | .gfAdd _ _ | .gfSub _ _ | .gfMul _ _ | .gfDiv _ _ => true
  | .gfPow _ n => decide (n < 2 ^ Config.nField)

end Sys2Proof
end

