-- ==== Sys2Proof/Decode.lean ====
section
/-! DEFINITION. The decoder and the encoder of command words (`30_encoding.md` R81 to R85, R88, R89, R91;
`opcode_table.json`). The decoder is total on all `2^80` words; a word that matches no row is refused under a name. -/

namespace Sys2Proof

/-! ### Fields of a command word (R81, R82) -/

/-- `OP = CW[79:76]` (R81). -/
def Field.op (cw : CommandWord) : BitVec 4 := cw.extractLsb' 76 4

/-- `AUTO = CW[75]` (R81). -/
def Field.auto (cw : CommandWord) : BitVec 1 := cw.extractLsb' 75 1

/-- `RSV = CW[74:72]` (R81). -/
def Field.rsv (cw : CommandWord) : BitVec 3 := cw.extractLsb' 72 3

/-- `LENGTH = CW[71:64]` (R81). -/
def Field.length (cw : CommandWord) : BitVec 8 := cw.extractLsb' 64 8

/-- `CAP = PAYLOAD[31:0]`, format C (R82). -/
def Field.cap (cw : CommandWord) : BitVec 32 := cw.extractLsb' 0 32

/-- `VALUE = PAYLOAD[63:0]`, formats A and AA (R82). -/
def Field.value (cw : CommandWord) : BitVec 64 := cw.extractLsb' 0 64

/-- `A = PAYLOAD[7:0]`, format G (R82). -/
def Field.a (cw : CommandWord) : Byte := cw.extractLsb' 0 8

/-- `B = PAYLOAD[15:8]`, format G (R82). -/
def Field.b (cw : CommandWord) : Byte := cw.extractLsb' 8 8

/-- `X = PAYLOAD[7:0]`, format P (R82). -/
def Field.x (cw : CommandWord) : Byte := cw.extractLsb' 0 8

/-- `N = PAYLOAD[39:8]`, format P (R82). -/
def Field.n (cw : CommandWord) : BitVec 32 := cw.extractLsb' 8 32

/-! ### The opcode map (R84) -/

/-- A row of the opcode map: the word selects it when `CW and mask = pattern` (R84); `operands` reads the operands of
its format, unsigned and straight from their fields (R82, R83). -/
structure OpRow where
  /-- the mnemonic of `opcode_table.json` -/
  mnemonic : String
  /-- the column `match` -/
  pattern : CommandWord
  /-- the column `mask` -/
  mask : CommandWord
  /-- operand assembly (R83) -/
  operands : CommandWord → Instr

/-- The word selects the row (R84). -/
def OpRow.selects (r : OpRow) (cw : CommandWord) : Bool := cw &&& r.mask == r.pattern

/-- The rows of the BSP commands (R84). -/
def bspRows : List OpRow :=
  [ ⟨"BS.CREATE", 0x10000000000000000000#80, 0xFFFFFFFFFFFF00000000#80, fun cw => .bsCreate (Field.cap cw).toNat⟩,
    ⟨"BS.APPEND", 0x20000000000000000000#80, 0xFF000000000000000000#80,
      fun cw => .bsAppend (Field.value cw).toNat (Field.length cw).toNat⟩,
    ⟨"BS.APPENDA", 0x28000000000000000000#80, 0xFFFF0000000000000000#80, fun cw => .bsAppendA (Field.value cw).toNat⟩,
    ⟨"BS.PAD", 0x30000000000000000000#80, 0xFFFFFFFFFFFFFFFFFFFF#80, fun _ => .bsPad⟩,
    ⟨"BS.FILL", 0x40000000000000000000#80, 0xFFFFFFFFFFFFFFFFFFFF#80, fun _ => .bsFill⟩,
    ⟨"BS.EXTRACT", 0x50000000000000000000#80, 0xFFFFFFFFFFFFFFFFFFFF#80, fun _ => .bsExtract⟩,
    ⟨"BS.LEN", 0x60000000000000000000#80, 0xFFFFFFFFFFFFFFFFFFFF#80, fun _ => .bsLen⟩,
    ⟨"BS.DUMP", 0x70000000000000000000#80, 0xFFFFFFFFFFFFFFFFFFFF#80, fun _ => .bsDump⟩ ]

/-- The rows of the GFU commands (R84). -/
def gfuRows : List OpRow :=
  [ ⟨"GF.ADD", 0x80000000000000000000#80, 0xFFFFFFFFFFFFFFFF0000#80, fun cw => .gfAdd (Field.a cw) (Field.b cw)⟩,
    ⟨"GF.SUB", 0x90000000000000000000#80, 0xFFFFFFFFFFFFFFFF0000#80, fun cw => .gfSub (Field.a cw) (Field.b cw)⟩,
    ⟨"GF.MUL", 0xA0000000000000000000#80, 0xFFFFFFFFFFFFFFFF0000#80, fun cw => .gfMul (Field.a cw) (Field.b cw)⟩,
    ⟨"GF.DIV", 0xB0000000000000000000#80, 0xFFFFFFFFFFFFFFFF0000#80, fun cw => .gfDiv (Field.a cw) (Field.b cw)⟩,
    ⟨"GF.POW", 0xC0000000000000000000#80, 0xFFFFFFFFFF0000000000#80, fun cw => .gfPow (Field.x cw) (Field.n cw).toNat⟩ ]

/-- The opcode map (R84). -/
def opRows : List OpRow := bspRows ++ gfuRows

/-! ### Decoding (R85, R89) -/

/-- Why a word matches no row: the cases R89 lists, in the order of the fields. The block answers every one of them
with the same `IllegalCommand`; the names are for the reader (log 12). -/
inductive IllegalWord where
  /-- `OP` in 0x0, 0xD, 0xE, 0xF -/
  | reservedOpcode
  /-- `RSV != 0` -/
  | reservedHeaderBits
  /-- `AUTO = 1` with `OP != 0x2` -/
  | autoNotAllowed
  /-- `LENGTH != 0` with `OP != 0x2`, or with `AUTO = 1` -/
  | lengthNotAllowed
  /-- a reserved `PAYLOAD` bit is set -/
  | reservedPayloadBits
deriving DecidableEq, Repr

/-- The first case of R89 that applies to a word that matches no row. -/
def illegalReason (cw : CommandWord) : IllegalWord :=
  if Field.op cw = 0x0#4 ∨ Field.op cw = 0xD#4 ∨ Field.op cw = 0xE#4 ∨ Field.op cw = 0xF#4 then .reservedOpcode
  else if Field.rsv cw ≠ 0#3 then .reservedHeaderBits
  else if Field.auto cw = 1#1 ∧ Field.op cw ≠ 0x2#4 then .autoNotAllowed
  else if Field.length cw ≠ 0#8 ∧ (Field.op cw ≠ 0x2#4 ∨ Field.auto cw = 1#1) then .lengthNotAllowed
  else .reservedPayloadBits

/-- The decoding procedure of R85: the row the word selects gives the command; no row, an illegal word. -/
def decode (cw : CommandWord) : Except IllegalWord Instr :=
  match opRows.find? (fun r => r.selects cw) with
  | some r => .ok (r.operands cw)
  | none => .error (illegalReason cw)

/-! ### Encoding (R91) -/

/-- `CW = {OP, AUTO, 0b000, LENGTH, PAYLOAD}` (R91). -/
def assemble (op : BitVec 4) (auto : BitVec 1) (length : BitVec 8) (payload : BitVec 64) : CommandWord :=
  op ++ auto ++ 0#3 ++ length ++ payload

/-- The payload of format G (R82). -/
def payloadG (a b : Byte) : BitVec 64 := 0#48 ++ b ++ a

/-- The command word of a command (R82, R84, R91). Of an operand that does not fit its field the low bits are taken;
the assembler never emits such a word (R90). -/
def encode : Instr → CommandWord
  | .bsCreate cap => assemble 0x1#4 0#1 0#8 (0#32 ++ BitVec.ofNat 32 cap)
  | .bsAppend value length => assemble 0x2#4 0#1 (BitVec.ofNat 8 length) (BitVec.ofNat 64 value)
  | .bsAppendA value => assemble 0x2#4 1#1 0#8 (BitVec.ofNat 64 value)
  | .bsPad => assemble 0x3#4 0#1 0#8 0#64
  | .bsFill => assemble 0x4#4 0#1 0#8 0#64
  | .bsExtract => assemble 0x5#4 0#1 0#8 0#64
  | .bsLen => assemble 0x6#4 0#1 0#8 0#64
  | .bsDump => assemble 0x7#4 0#1 0#8 0#64
  | .gfAdd a b => assemble 0x8#4 0#1 0#8 (payloadG a b)
  | .gfSub a b => assemble 0x9#4 0#1 0#8 (payloadG a b)
  | .gfMul a b => assemble 0xA#4 0#1 0#8 (payloadG a b)
  | .gfDiv a b => assemble 0xB#4 0#1 0#8 (payloadG a b)
  | .gfPow x n => assemble 0xC#4 0#1 0#8 (0#24 ++ BitVec.ofNat 32 n ++ x)

/-! ### The opcode table's words -/

/-- The command word whose low `nbits` bits are those of `w` and whose other bits are 0. QRCORE presents one 80-bit
word whole, so the table's bit numbers are the word's own (R81). -/
def tableWord (nbits w : Nat) : CommandWord := BitVec.ofNat 80 (w % 2 ^ nbits)

/-- The command the decoder reads from a word of the opcode table; none where it refuses the word. -/
def decodeTableWord (nbits w : Nat) : Option Instr :=
  match decode (tableWord nbits w) with
  | .ok i => some i
  | .error _ => none

end Sys2Proof
end

