-- ==== Sys2Proof/Machine/State.lean ====
section
/-! DEFINITION. The state of QRCORE (`10_state.md` R20 to R41), the inputs and outputs of its step, the reasons a step can
stop, and the state after reset. All of it is plain data. -/

namespace Sys2Proof.Machine

/-! ### The BSP -/

/-- The contents of the storage as a list of (index, byte), in the canonical form of `Memory.wf`: indices strictly rising,
no zero byte listed. A byte of the storage that is not listed is 0x00 (R24: fresh and grown bytes are zero). -/
abbrev Memory := List Host.Cell

/-- The state of the bit-stream packer: four elements (R20). -/
structure Bsp where
  /-- `MEM[0 .. LEN-1]` (R24) -/
  mem : Memory
  /-- `LEN`, the bytes of storage (R23) -/
  len : Nat
  /-- `BYTE_CUR`, "index of the byte currently being written" (R21) -/
  byteCur : Nat
  /-- `BIT_CUR`, 0 to 7, counted from the most significant bit (R22) -/
  bitCur : Fin 8
deriving DecidableEq, Repr

/-! ### The GFU -/

/-- The exponent table: 512 bytes, index 0 first (R30). -/
structure ExpTable where
  /-- `EXP[0], EXP[1], ...` -/
  entries : List Byte
  /-- `EXP_SIZE = 512` -/
  size : entries.length = 512
deriving DecidableEq, Repr

/-- The logarithm table: 255 entries, each 0 to 254, the entry of element 1 first (R30). `LOG[0]` holds no value (R36), so
it has no entry. -/
structure LogTable where
  /-- `LOG[1], LOG[2], ...` -/
  entries : List (Fin 255)
  /-- elements 1 to 255 -/
  size : entries.length = 255
deriving DecidableEq, Repr

/-- The state of the field unit: the two tables (R30, R31). -/
structure Gfu where
  /-- `EXP` -/
  exp : ExpTable
  /-- `LOG` -/
  log : LogTable
deriving DecidableEq, Repr

/-- The tables when reset ends (R40, R250 (a), R251). -/
def Gfu.reset : Gfu where
  exp := ⟨Tables.expEntries, by decide +kernel⟩
  log := ⟨Tables.logEntries, by decide +kernel⟩

/-! ### Parameters of the step (R41) -/

/-- One growth at which the implementation's `GROW` departs from exact fit: `GROW(len, need) = newLen`. -/
structure GrowEntry where
  /-- the storage length before -/
  len : Nat
  /-- the storage length needed -/
  need : Nat
  /-- the storage length after -/
  newLen : Nat
deriving DecidableEq, Repr

/-- The open parameters of `00_scope.md` R8 that a step reads. They are fixed for the machine: no command writes them.
They stand in the state because a step's only argument is the state; a statement about every state is a statement about
every value of them. -/
structure Params where
  /-- `BUF_MAX`; `none` is the infinite bound (R8; log 4) -/
  bufMax : Option Nat
  /-- `GROW` as a finite table over exact fit, the default: the empty list is exact fit (R8, R116; log 5) -/
  growTable : List GrowEntry
deriving DecidableEq, Repr

/-- `BUF_MAX` the largest the hardware form allows (R86), `GROW` exact fit (R116). DESIGN CHOICE for `BUF_MAX` (log 4). -/
def Params.default : Params where
  bufMax := some Config.hardwareBufMax
  growTable := []

/-! ### Responses -/

/-- The outcome a response reports: OK or the kind of error (`60_exceptions.md` R221). The block itself emits only `ok`,
`divisionByZero`, `capacityExceeded` and `illegalCommand`; the other four are the host's own (R223). -/
inductive Status where
  /-- no error -/
  | ok
  /-- GF.DIV with divisor 0 (R222) -/
  | divisionByZero
  /-- host: a mode other than alphanumeric (R223) -/
  | unsupportedMode
  /-- host: version outside the supported set (R223) -/
  | unsupportedVersion
  /-- host: level other than M (R223) -/
  | unsupportedErrorCorrectionLevel
  /-- host: a character outside the alphabet (R223) -/
  | invalidCharacter
  /-- storage would exceed `BUF_MAX` (R228) -/
  | capacityExceeded
  /-- the command word matches no row (R227) -/
  | illegalCommand
deriving DecidableEq, Repr

/-- One response (`30_encoding.md` R86). `VAL` is a natural, as R86 allows a model over naturals; the 40-bit header is
`Response.header`. The `count` of data bytes is `data.length`. -/
structure Response where
  /-- `STATUS` -/
  status : Status
  /-- `BITC` -/
  bitc : Fin 8
  /-- `VAL` -/
  val : Nat
  /-- the data bytes, in ascending storage index -/
  data : List Byte
deriving DecidableEq, Repr

/-! ### The machine -/

/-- The state of the machine: the state of QRCORE (`bsp`, `gfu`) and what passes through its command port. -/
structure State where
  /-- the bit-stream packer (R20 to R24) -/
  bsp : Bsp
  /-- the field unit's tables (R30 to R37) -/
  gfu : Gfu
  /-- the parameters of the step (R41) -/
  params : Params
  /-- the command words presented and not yet executed, oldest first (`30_encoding.md` R80; log 1) -/
  commands : List CommandWord
  /-- the response emitted last, none before the first (`30_encoding.md` R86; log 3) -/
  response : Option Response
deriving DecidableEq, Repr

/-- Why the machine can stop with a fault. -/
inductive Fault where
  /-- Raised by BS.EXTRACT when the prefix it would return reaches past `LEN`, where no byte exists (`MemRead` is defined
  only within `LEN`, R12, R59). Safe: no reachable state raises it (log 8). -/
  | storageOutOfRange
deriving DecidableEq, Repr

/-- Why the machine can refuse a command. -/
inductive Refusal where
  /-- Raised by `exec` for an instruction that has no meaning yet. Safe. -/
  | notModelled (mnemonic : String)
  /-- Raised by GF.POW with base 0: the spec leaves the response open as `POW_ZERO_BASE` and has a model refuse the
  command (`41_field.md` R176). Safe (log 6). -/
  | powZeroBase
deriving DecidableEq, Repr

/-- The BSP after reset: as after `BS.CREATE 1` (R40, R250 (b)). -/
def Bsp.reset : Bsp where
  mem := []
  len := Config.defaultCap
  byteCur := 0
  bitCur := 0

/-- The machine right after reset (R40, R250): one zero byte of storage, cursor (0, 0), both tables built, no command in
progress and no response pending. -/
def State.reset : State where
  bsp := Bsp.reset
  gfu := Gfu.reset
  params := Params.default
  commands := []
  response := none

end Sys2Proof.Machine
end

