-- ==== Sys2Proof/Machine/Flags.lean ====
section
/-! DEFINITION. QRCORE has no flags (`10_state.md` R28). What reports the outcome of a command is the `STATUS` field of its
response: its codes (`60_exceptions.md` R221) and the response header's layout (`30_encoding.md` R86) stand here. -/

namespace Sys2Proof.Machine

/-- The 4-bit status codes (R221). -/
def Status.code : Status → BitVec 4
  | .ok => 0x0#4
  | .divisionByZero => 0x1#4
  | .unsupportedMode => 0x2#4
  | .unsupportedVersion => 0x3#4
  | .unsupportedErrorCorrectionLevel => 0x4#4
  | .invalidCharacter => 0x5#4
  | .capacityExceeded => 0xE#4
  | .illegalCommand => 0xF#4

/-- The status a code names; the codes 0x6 to 0xD are unassigned (R221). -/
def Status.ofCode (c : BitVec 4) : Option Status :=
  match c.toNat with
  | 0x0 => some .ok
  | 0x1 => some .divisionByZero
  | 0x2 => some .unsupportedMode
  | 0x3 => some .unsupportedVersion
  | 0x4 => some .unsupportedErrorCorrectionLevel
  | 0x5 => some .invalidCharacter
  | 0xE => some .capacityExceeded
  | 0xF => some .illegalCommand
  | _ => none

/-- The response header `RH[39:0]`: `STATUS`, a zero bit, `BITC`, `VAL` (R86). With the hardware form's bound on
`BUF_MAX` every `VAL` fits its 32 bits; a larger one, possible only in a model over naturals, has no header of its own and
its low 32 bits are shown (log 10). -/
def Response.header (r : Response) : ResponseHeader :=
  r.status.code ++ 0#1 ++ BitVec.ofNat 3 r.bitc.val ++ BitVec.ofNat 32 r.val

/-- A response as the block emits it: the header, then the data bytes (R86). -/
def Response.emitted (r : Response) : ResponseHeader × List Byte := (r.header, r.data)

/-- The OK response with no value (R87, BS.CREATE, BS.APPEND, BS.APPENDA, BS.PAD, BS.FILL). -/
def Response.done : Response := ⟨.ok, 0, 0, []⟩

/-- The OK response with a scalar value and no data (R87, BS.LEN and the GFU commands). -/
def Response.value (v : Nat) : Response := ⟨.ok, 0, v, []⟩

/-- The response of an error: its status, `VAL = 0`, `BITC = 0`, no data bytes (R87, R224 (c)). -/
def Response.error (e : Status) : Response := ⟨e, 0, 0, []⟩

end Sys2Proof.Machine
end

