-- ==== Sys2Proof/Machine/Operands.lean ====
section
/-! DEFINITION. The arithmetic of operands (`00_scope.md` R10, R11; `40_bitstream.md` R111, R115) and the reads of the GFU
tables (`10_state.md` R30, R36). Everything is over naturals; nothing wraps. -/

namespace Sys2Proof.Machine

/-- `bit(v, i) = floor(v / 2^i) mod 2`, as a truth value (R10). -/
def bit (v i : Nat) : Bool := v / 2 ^ i % 2 == 1

/-- The digits of `v` counted with `fuel` halvings at most: 1 for a value below 2, one more than its half's otherwise. -/
def bitlenFuel : Nat → Nat → Nat
  | 0, _ => 1
  | fuel + 1, v => if v < 2 then 1 else bitlenFuel fuel (v / 2) + 1

/-- `bitlen(v)`: "the minimum number of bits needed to represent `value` (treating `value == 0` as requiring 1 bit)"
(R11). `v` halvings are always enough, and `Nat.log2 v` already. -/
def bitlen (v : Nat) : Nat := bitlenFuel (Nat.log2 v) v

/-- `ceil8(t) = (t + 7) div 8` (R10). -/
def ceil8 (t : Nat) : Nat := (t + 7) / 8

/-- The cursor as a stream position, `P = 8*BYTE_CUR + BIT_CUR` (R12, R50). -/
def Bsp.pos (b : Bsp) : Nat := 8 * b.byteCur + b.bitCur.val

/-- `need = ceil8(P + length)`, the smallest storage length that holds the group (R115). -/
def Bsp.need (b : Bsp) (length : Nat) : Nat := ceil8 (b.pos + length)

/-- `EXP[i]` (R30). -/
def Gfu.expAt (g : Gfu) (i : Nat) (h : i < 512) : Byte := g.exp.entries[i]'(by rw [g.exp.size]; exact h)

/-- `LOG[x]`, a function on the elements 1 to 255 only (R36). -/
def Gfu.logAt (g : Gfu) (x : Byte) (h : x ≠ 0#8) : Nat :=
  (g.log.entries[x.toNat - 1]'(by
    have h1 : x.toNat ≠ 0 := fun h0 => h (BitVec.eq_of_toNat_eq h0)
    have h2 := x.isLt
    rw [g.log.size]
    omega)).val

/-- `EXP[k mod 255]`: "each is reduced to 0 to 254 before `EXP` is read" (`41_field.md` R153). -/
def Gfu.expMod (g : Gfu) (k : Nat) : Byte := g.expAt (k % 255) (by omega)

end Sys2Proof.Machine
end

