-- ==== Sys2Proof/Machine/Ops.lean ====
section
/-! DEFINITION. The shared operations: storage bytes and stream bits (`20_memory.md` R50 to R54), the growth and write steps
of an append (`40_bitstream.md` R116, R117), alignment and fill (R122, R125), responding, and raising an error
(`60_exceptions.md` R224). -/

namespace Sys2Proof.Machine

/-! ### Bytes of the storage -/

/-- The canonical form from index `lo` on: indices strictly rising from at least `lo`, no zero byte listed. -/
def Memory.wfFrom : Nat → Memory → Bool
  | _, [] => true
  | lo, (a, b) :: rest => decide (lo ≤ a) && b != 0#8 && Memory.wfFrom (a + 1) rest

/-- The canonical form of the storage's contents: indices strictly rising, no entry equal to what an unlisted index reads
as. -/
def Memory.wf (m : Memory) : Bool := Memory.wfFrom 0 m

/-- `MEM[i]`; an index that is not listed reads 0x00 (R24). -/
def Memory.get : Memory → Nat → Byte
  | [], _ => 0#8
  | (a, b) :: rest, i => if i = a then b else Memory.get rest i

/-- Puts a cell at its place among rising indices. -/
def Memory.insert : Memory → Nat → Byte → Memory
  | [], i, v => [(i, v)]
  | (a, b) :: rest, i, v => if i < a then (i, v) :: (a, b) :: rest else (a, b) :: Memory.insert rest i v

/-- `MEM[i] <- v`, keeping the canonical form: a zero byte is not listed. -/
def Memory.set (m : Memory) (i : Nat) (v : Byte) : Memory :=
  let others := m.filter (fun c => c.1 ≠ i)
  if v = 0#8 then others else Memory.insert others i v

/-- Drops what stands at or beyond `n`. -/
def Memory.below (m : Memory) (n : Nat) : Memory := m.filter (fun c => c.1 < n)

/-- `MemRead(addr, n)`: the bytes `MEM[addr], ..., MEM[addr+n-1]` (R12). -/
def Memory.read (m : Memory) (addr : Nat) : Nat → List Byte
  | 0 => []
  | n + 1 => m.get addr :: m.read (addr + 1) n

/-! ### Bits of the stream -/

/-- Bit `k` of a byte counted from the most significant: the bit of weight `2^(7-k)` (R51). -/
def byteBit (b : Byte) (k : Nat) : Bool := bit b.toNat (7 - k)

/-- A byte with its bit `k`, counted from the most significant, replaced. -/
def byteWithBit (b : Byte) (k : Nat) (v : Bool) : Byte :=
  let w := BitVec.ofNat 8 (2 ^ (7 - k))
  if v then b ||| w else b &&& ~~~w

/-- `SBIT(k) = bit(MEM[k div 8], 7 - (k mod 8))` (R12, R51). -/
def Memory.sbit (m : Memory) (k : Nat) : Bool := byteBit (m.get (k / 8)) (k % 8)

/-- `SBIT(k) <- b`: "replaces that one bit of `MEM[k div 8]` by `b`, leaving the other seven" (R12). -/
def Memory.setSbit (m : Memory) (k : Nat) (v : Bool) : Memory :=
  m.set (k / 8) (byteWithBit (m.get (k / 8)) (k % 8) v)

/-- The loop of the write step (R117) over the low `n` bits of `value`, most significant first, from stream position `p`:
stream bit `p + j` receives `bit(value, n - 1 - j)`. -/
def Memory.writeGroup (m : Memory) (p value : Nat) : Nat → Memory
  | 0 => m
  | n + 1 => (m.setSbit p (bit value n)).writeGroup (p + 1) value n

/-- The pad byte number `k`, counted from the first filled byte: 0xEC for even `k`, 0x11 for odd `k` (R125). -/
def padByte (k : Nat) : Byte := if k % 2 = 0 then Config.pad0 else Config.pad1

/-- The loop of BS.FILL (R125): the pad bytes number `k`, `k + 1`, ... into the `n` bytes from index `s + k` on. -/
def Memory.fillPads (m : Memory) (s k : Nat) : Nat → Memory
  | 0 => m
  | n + 1 => (m.set (s + k) (padByte k)).fillPads s (k + 1) n

/-! ### Parameters -/

/-- A storage length exceeds `BUF_MAX`; never, if `BUF_MAX` is infinite (R112, R116, R228). -/
def Params.exceeds (p : Params) (n : Nat) : Bool :=
  match p.bufMax with
  | none => false
  | some m => decide (m < n)

/-- A storage length cut down to `BUF_MAX`. -/
def Params.capped (p : Params) (n : Nat) : Nat :=
  match p.bufMax with
  | none => n
  | some m => min n m

/-- `GROW(len, need)` (R8, R116): the table's answer for these arguments, exact fit where the table has none, brought
within `need <= GROW(len, need) <= BUF_MAX`. -/
def Params.grow (p : Params) (len need : Nat) : Nat :=
  match p.growTable.find? (fun e => e.len == len && e.need == need) with
  | some e => max need (p.capped e.newLen)
  | none => need

/-! ### Steps of the BSP commands -/

/-- A stream of `cap` zero bytes, cursor (0, 0) (R112). -/
def Bsp.created (cap : Nat) : Bsp where
  mem := []
  len := cap
  byteCur := 0
  bitCur := 0

/-- The growth step (R116), its `BUF_MAX` test made before: existing bytes keep their values, new bytes are zero, and
nothing changes when `need <= LEN`. -/
def Bsp.grown (p : Params) (need : Nat) (b : Bsp) : Bsp :=
  if need > b.len then { b with mem := b.mem.below b.len, len := p.grow b.len need } else b

/-- The cursor at stream position `t`: `BYTE_CUR <- t div 8`, `BIT_CUR <- t mod 8` (R117). -/
def Bsp.seek (t : Nat) (b : Bsp) : Bsp :=
  { b with byteCur := t / 8, bitCur := ⟨t % 8, Nat.mod_lt t (by decide)⟩ }

/-- The write step (R117): the group's bits at the cursor, the cursor past them. -/
def Bsp.written (value length : Nat) (b : Bsp) : Bsp :=
  Bsp.seek (b.pos + length) { b with mem := b.mem.writeGroup b.pos value length }

/-- The alignment of BS.PAD, also the first step of BS.FILL (R122, R125). -/
def Bsp.padded (b : Bsp) : Bsp :=
  if b.bitCur = 0 then b else { b with byteCur := b.byteCur + 1, bitCur := 0 }

/-- BS.FILL's effect (R125): align, pad bytes from the cursor to the end of the storage, cursor to `(LEN, 0)`. -/
def Bsp.filled (b : Bsp) : Bsp :=
  let a := b.padded
  { a with mem := a.mem.fillPads a.byteCur 0 (a.len - a.byteCur), byteCur := a.len, bitCur := 0 }

/-- The number of bytes of the written prefix: `BYTE_CUR + (BIT_CUR != 0 ? 1 : 0)` (R128). -/
def Bsp.prefixLength (b : Bsp) : Nat := b.byteCur + (if b.bitCur = 0 then 0 else 1)

/-! ### Updates of the state -/

/-- `s` with the response `r` emitted. -/
def State.withResponse (s : State) (r : Response) : State := { s with response := some r }

/-- `s` with the BSP in state `b`. -/
def State.withBsp (s : State) (b : Bsp) : State := { s with bsp := b }

/-- `s` with the command words `cws` waiting. -/
def State.withCommands (s : State) (cws : List CommandWord) : State := { s with commands := cws }

/-! ### Ending a command -/

/-- `respond(status, result)`: ends the command and emits the response (R12, R86). -/
def respond (r : Response) (s : State) : Host.Outcome State Fault Refusal := .next (s.withResponse r)

/-- Ends a BSP command that leaves the stream `b`, with OK and no value (R87). -/
def finish (b : Bsp) (s : State) : Host.Outcome State Fault Refusal := respond .done (s.withBsp b)

/-- `raise <Error>(info)`, the block's whole "trap entry" (R12, R224): the command ends, no state element has been changed,
the response is the error's, nothing else is saved anywhere. There is no return from it: the next command runs normally
(R226). -/
def raise (e : Status) (s : State) : Host.Outcome State Fault Refusal := respond (.error e) s

/-- An append of `length` bits of `value` (R115 to R118): the `BUF_MAX` test, the growth step, the write step. -/
def append (value length : Nat) (s : State) : Host.Outcome State Fault Refusal :=
  if s.params.exceeds (s.bsp.need length) then raise .capacityExceeded s
  else finish ((s.bsp.grown s.params (s.bsp.need length)).written value length) s

end Sys2Proof.Machine
end

