-- ==== Sys2Proof/Machine/Bitstream.lean ====
section
/-! DEFINITION. The meanings of the BSP commands (`40_bitstream.md` R112 to R134), one definition per command. -/

namespace Sys2Proof.Machine

/-- BS.CREATE (R112, R113): `CapacityExceeded` when `cap > BUF_MAX`, else a fresh stream; nothing of the old one survives. -/
def execBsCreate (cap : Nat) (s : State) : Host.Outcome State Fault Refusal :=
  if s.params.exceeds cap then raise .capacityExceeded s else finish (Bsp.created cap) s

/-- BS.APPEND (R118, R119): an append with explicit length. -/
def execBsAppend (value length : Nat) (s : State) : Host.Outcome State Fault Refusal :=
  append value length s

/-- BS.APPENDA (R120, R121): an append with `length = bitlen(value)`. -/
def execBsAppendA (value : Nat) (s : State) : Host.Outcome State Fault Refusal :=
  append value (bitlen value) s

/-- BS.PAD (R122, R123): `MEM` and `LEN` are never changed. -/
def execBsPad (s : State) : Host.Outcome State Fault Refusal :=
  finish s.bsp.padded s

/-- BS.FILL (R125, R126): `LEN` is unchanged. -/
def execBsFill (s : State) : Host.Outcome State Fault Refusal :=
  finish s.bsp.filled s

/-- BS.EXTRACT (R128, R129): the written prefix; no state changes. `MemRead(0, n)` is defined only for `n <= LEN` (R12),
which every reachable state meets (R59; log 8). -/
def execBsExtract (s : State) : Host.Outcome State Fault Refusal :=
  if s.bsp.prefixLength ≤ s.bsp.len then
    respond ⟨.ok, 0, s.bsp.prefixLength, s.bsp.mem.read 0 s.bsp.prefixLength⟩ s
  else .fault .storageOutOfRange

/-- BS.LEN (R131): the capacity, not the written length; no state changes. -/
def execBsLen (s : State) : Host.Outcome State Fault Refusal :=
  respond (.value s.bsp.len) s

/-- BS.DUMP (R134): every stored byte and the bit cursor; no state changes. -/
def execBsDump (s : State) : Host.Outcome State Fault Refusal :=
  respond ⟨.ok, s.bsp.bitCur, s.bsp.len, s.bsp.mem.read 0 s.bsp.len⟩ s

end Sys2Proof.Machine
end

