-- ==== Sys2Proof/Machine/Field.lean ====
section
/-! DEFINITION. The meanings of the GFU commands (`41_field.md` R160 to R176), one definition per command. A GFU command
reads its operands and the tables and writes nothing (R152). -/

namespace Sys2Proof.Machine

/-- The product of R166; the zero test comes first, so `LOG[0]` is never read. -/
def Gfu.mul (g : Gfu) (a b : Byte) : Byte :=
  if ha : a = 0#8 then 0#8
  else if hb : b = 0#8 then 0#8
  else g.expMod (g.logAt a ha + g.logAt b hb)

/-- The quotient of R170 for a divisor other than 0: "returns 0 when `a == 0`". The sum is taken before the difference,
which is the same index over naturals. -/
def Gfu.div (g : Gfu) (a b : Byte) (hb : b ≠ 0#8) : Byte :=
  if ha : a = 0#8 then 0#8
  else g.expMod (g.logAt a ha + 255 - g.logAt b hb)

/-- The power of R174 for a base other than 0. -/
def Gfu.pow (g : Gfu) (x : Byte) (n : Nat) (hx : x ≠ 0#8) : Byte := g.expMod (g.logAt x hx * n)

/-- GF.ADD (R160, R161): "bitwise XOR of the two byte values". -/
def execGfAdd (a b : Byte) (s : State) : Host.Outcome State Fault Refusal :=
  respond (.value (a ^^^ b).toNat) s

/-- GF.SUB (R163): "`add` and `subtract` are identical". -/
def execGfSub (a b : Byte) (s : State) : Host.Outcome State Fault Refusal :=
  respond (.value (a ^^^ b).toNat) s

/-- GF.MUL (R166, R167). -/
def execGfMul (a b : Byte) (s : State) : Host.Outcome State Fault Refusal :=
  respond (.value (s.gfu.mul a b).toNat) s

/-- GF.DIV (R170, R171): the divisor is tested first. -/
def execGfDiv (a b : Byte) (s : State) : Host.Outcome State Fault Refusal :=
  if hb : b = 0#8 then raise .divisionByZero s else respond (.value (s.gfu.div a b hb).toNat) s

/-- GF.POW (R174, R175); with base 0 "it refuses the command (the step has no meaning)" (R176; log 6). -/
def execGfPow (x : Byte) (n : Nat) (s : State) : Host.Outcome State Fault Refusal :=
  if hx : x = 0#8 then .refused .powZeroBase else respond (.value (s.gfu.pow x n hx).toNat) s

end Sys2Proof.Machine
end

