-- ==== Sys2Proof/Machine/Dispatch.lean ====
section
/-! DEFINITION. One arm per command, each a direct call of its meaning. -/

namespace Sys2Proof.Machine

def exec (i : Instr) (s : State) : Host.Outcome State Fault Refusal :=
  match i with
  -- BSP commands (40_bitstream.md)
  | .bsCreate cap => Sys2Proof.Machine.execBsCreate cap s
  | .bsAppend value length => Sys2Proof.Machine.execBsAppend value length s
  | .bsAppendA value => Sys2Proof.Machine.execBsAppendA value s
  | .bsPad => Sys2Proof.Machine.execBsPad s
  | .bsFill => Sys2Proof.Machine.execBsFill s
  | .bsExtract => Sys2Proof.Machine.execBsExtract s
  | .bsLen => Sys2Proof.Machine.execBsLen s
  | .bsDump => Sys2Proof.Machine.execBsDump s
  -- GFU commands (41_field.md)
  | .gfAdd a b => Sys2Proof.Machine.execGfAdd a b s
  | .gfSub a b => Sys2Proof.Machine.execGfSub a b s
  | .gfMul a b => Sys2Proof.Machine.execGfMul a b s
  | .gfDiv a b => Sys2Proof.Machine.execGfDiv a b s
  | .gfPow x n => Sys2Proof.Machine.execGfPow x n s

end Sys2Proof.Machine
end

