-- ==== Sys2Proof/Machine/Port.lean ====
section
/-! DEFINITION. The command port (`30_encoding.md` R80, R85, R89): what the block does with one command word, and with
none. -/

namespace Sys2Proof.Machine

/-- Executes one command word (R85): the command it decodes to, or `IllegalCommand` for a word that matches no row (R89,
R227); the word is judged before any operand (R229). -/
def execWord (cw : CommandWord) (s : State) : Host.Outcome State Fault Refusal :=
  match decode cw with
  | .ok i => exec i s
  | .error _ => raise .illegalCommand s

/-- With no command presented the block waits, "and all state survives between commands" (R241; log 2). -/
def waitForCommand (s : State) : Host.Outcome State Fault Refusal := .next s

/-- The command word presented ahead of those already waiting. -/
def State.presentFirst (s : State) (cw : CommandWord) : State := s.withCommands (cw :: s.commands)

/-- The command words presented after those already waiting, in their order (R80: "taken in arrival order as one
sequence"). -/
def State.present (s : State) (cws : List CommandWord) : State :=
  s.withCommands (s.commands ++ cws)

end Sys2Proof.Machine
end

