-- ==== Sys2Proof/Machine/Step.lean ====
section
/-! DEFINITION. One step: the block takes the oldest command word presented to it and executes it to completion
(`00_scope.md` R13, `30_encoding.md` R80, R85), or waits when there is none (`60_exceptions.md` R241). -/

namespace Sys2Proof.Machine

/-- One step of QRCORE. -/
def step (s : State) : Host.Outcome State Fault Refusal :=
  match s.commands with
  | [] => waitForCommand s
  | cw :: rest => execWord cw (s.withCommands rest)

/-- `s` with the command word of the opcode table presented at the command port ahead of every other, so that the very
next step executes it (log 1). -/
def State.withFetchWord (s : State) (nbits w : Nat) : State := s.presentFirst (tableWord nbits w)

end Sys2Proof.Machine
end

