-- ==== Sys2Proof/Machine/HostSequences.lean ====
section
/-! DEFINITION. The host software of `42_host_sequences.md`: the character table (R190), CCI.WIDTH (R196), ENC.ALNUM (R200 to
R203), the debug string (R206), and the pseudo-instructions (`30_encoding.md` R92). Nothing here is state or behaviour of
QRCORE (`00_scope.md` R5): each pseudo-instruction is the list of commands the host issues, and how it ends in the host. -/

namespace Sys2Proof.HostSeq

open Sys2Proof.Machine

/-! ### Constant data -/

/-- The 45 symbols, in the order that gives their values (R190). -/
def alphabet : List Char := "0123456789ABCDEFGHIJKLMNOPQRSTUVWXYZ $%*+-./:".toList

/-- `VAL(c)`: the position in the alphabet; undefined for every other character (R190). -/
def charValue (c : Char) : Option Nat := alphabet.findIdx? (fun d => d == c)

/-- The encoding modes the width function distinguishes (R191, R196). -/
inductive Mode where
  | numeric
  | alphanumeric
  | byte
  | kanji
deriving DecidableEq, Repr

/-- The error-correction levels (R200, R201). -/
inductive EcLevel where
  | L
  | M
  | Q
  | H
deriving DecidableEq, Repr

/-- The alphanumeric mode indicator, the 4-bit pattern 0010 (R191). -/
def alphanumericIndicator : Nat := 2

/-- `CAPACITY(1, M)`, from general knowledge, not in the source (R192, `93_implementation_defined.md` G1). PRESUMED
(log 11). -/
def capacityV1M : Nat := 16

/-! ### CCI.WIDTH -/

/-- The widths for the versions 1 to 40 (R196). -/
def cciBits (version : Int) : Nat := if version ≤ 9 then 9 else if version ≤ 26 then 11 else 13

/-- `CCI.WIDTH version, mode`: the version is tested first (R196). -/
def cciWidth (version : Int) (mode : Mode) : Except Status Nat :=
  if version < 1 ∨ version > 40 then .error .unsupportedVersion
  else if mode ≠ .alphanumeric then .error .unsupportedMode
  else .ok (cciBits version)

/-! ### ENC.ALNUM -/

/-- What a host sequence does: the commands it issues, in order, and the host-side error that ended it, if one did. -/
structure Expansion where
  /-- the commands issued -/
  commands : List Instr
  /-- the host-side error (R223) -/
  failure : Option Status
deriving DecidableEq, Repr

/-- Step 5 of R200: pairs as 11-bit groups, a trailing single as a 6-bit group; it ends at the first pair or single that
holds a character without a value (R201 (d)). -/
def packGroups : List Char → Expansion
  | [] => ⟨[], none⟩
  | [c] =>
    match charValue c with
    | some v => ⟨[.bsAppend v 6], none⟩
    | none => ⟨[], some .invalidCharacter⟩
  | c :: d :: rest =>
    match charValue c, charValue d with
    | some v, some w =>
      let more := packGroups rest
      ⟨.bsAppend (v * 45 + w) 11 :: more.commands, more.failure⟩
    | _, _ => ⟨[], some .invalidCharacter⟩

/-- Steps 2 to 4 of R200 for version 1 and `m` characters. -/
def header (cap m : Nat) : List Instr :=
  [.bsCreate cap, .bsAppend alphanumericIndicator 4, .bsAppend m (cciBits 1)]

/-- Steps 6 and 7 of R200: the terminator, alignment and fill. -/
def trailer : List Instr := [.bsAppend 0 4, .bsPad, .bsFill]

/-- `ENC.ALNUM data, version, level` (R200, R201), with `CAPACITY` as an argument (R192). Version and level are tested
before any command; an invalid character ends the expansion where it is met, the commands before it issued. -/
def encAlnum (capacity : Int → EcLevel → Nat) (data : List Char) (version : Int) (level : EcLevel) : Expansion :=
  if version ≠ 1 then ⟨[], some .unsupportedVersion⟩
  else if level ≠ .M then ⟨[], some .unsupportedErrorCorrectionLevel⟩
  else
    let groups := packGroups data
    let issued := header (capacity version level) data.length ++ groups.commands
    match groups.failure with
    | some e => ⟨issued, some e⟩
    | none => ⟨issued ++ trailer, none⟩

/-- The bits the appends of a command list add to the stream: the lengths of its BS.APPEND commands (R202 (b)). -/
def appendedBits : List Instr → Nat
  | [] => 0
  | .bsAppend _ length :: rest => length + appendedBits rest
  | _ :: rest => appendedBits rest

/-! ### The debug string -/

/-- The 8 binary digits of a byte, most significant first (R206). -/
def digits (b : Byte) : List Char := (List.range 8).map (fun k => if byteBit b k then '1' else '0')

/-- The rendering of a BS.DUMP response (R206): plain, the digits of every byte; pretty, a space after each byte's digits
and the bit cursor in parentheses. -/
def debugString (dump : Response) (pretty : Bool) : List Char :=
  if pretty then
    dump.data.flatMap (fun b => digits b ++ [' ']) ++ ['('] ++ Nat.toDigits 10 dump.bitc.val ++ [')']
  else dump.data.flatMap digits

/-! ### Pseudo-instructions -/

/-- The pseudo-instructions of R92; "there are no others". -/
inductive Pseudo where
  /-- (a) `BS.CREATE` with no operand -/
  | createDefault
  /-- (b) `BS.APPEND value` with no length -/
  | appendAuto (value : Nat)
  /-- (c) `ENC.ALNUM "text", version, level` -/
  | encAlnum (data : List Char) (version : Int) (level : EcLevel)
  /-- (d) `CCI.WIDTH version, mode`, which emits no command -/
  | cciWidth (version : Int) (mode : Mode)
  /-- (e) `BS.DEBUG pretty` -/
  | debug (pretty : Bool)
deriving DecidableEq, Repr

/-- The commands of a pseudo-instruction (R92). -/
def Pseudo.expand (capacity : Int → EcLevel → Nat) : Pseudo → Expansion
  | .createDefault => ⟨[.bsCreate Config.defaultCap], none⟩
  | .appendAuto value => ⟨[.bsAppendA value], none⟩
  | .encAlnum data version level => HostSeq.encAlnum capacity data version level
  | .cciWidth version mode =>
    match HostSeq.cciWidth version mode with
    | .ok _ => ⟨[], none⟩
    | .error e => ⟨[], some e⟩
  | .debug _ => ⟨[.bsDump], none⟩

end Sys2Proof.HostSeq
end

