-- ==== Sys2Proof/Machine/Assembler.lean ====
section
/-! DEFINITION. The assembler syntax of `30_encoding.md` R90 with the pseudo-instructions of R92, one line at a time: "One
command per line: mnemonic, then operands separated by commas; numbers in decimal, `0x` hexadecimal or `0b` binary; `;` starts
a comment; `->` after a command, in listings only, shows the expected response." Text is a list of characters. Host software,
no part of QRCORE. -/

namespace Sys2Proof.Assembler

open Sys2Proof.HostSeq

/-- The double quote that delimits the text of ENC.ALNUM (R92 (c)). -/
def quote : Char := Char.ofNat 34

/-- The value of a digit in the bases 2, 10 and 16. -/
def digitValue (c : Char) : Option Nat := "0123456789ABCDEF".toList.findIdx? (fun d => d == c.toUpper)

/-- The number a non-empty digit string denotes in a base. -/
def digitsValue (base : Nat) : List Char → Nat → Option Nat
  | [], acc => some acc
  | c :: cs, acc =>
    match digitValue c with
    | some d => if d < base then digitsValue base cs (acc * base + d) else none
    | none => none

/-- A number in decimal, `0x` hexadecimal or `0b` binary (R90). -/
def number : List Char → Option Nat
  | '0' :: 'x' :: d :: ds => digitsValue 16 (d :: ds) 0
  | '0' :: 'b' :: d :: ds => digitsValue 2 (d :: ds) 0
  | d :: ds => digitsValue 10 (d :: ds) 0
  | [] => none

/-- The line without its comment and without the expected response of a listing; neither starts inside quotes. -/
def code (quoted : Bool) : List Char → List Char
  | [] => []
  | c :: cs =>
    if c = quote then c :: code (!quoted) cs
    else if quoted then c :: code quoted cs
    else if c = ';' then []
    else if c = '-' && cs.head? == some '>' then []
    else c :: code quoted cs

/-- The text without spaces at either end. -/
def trim (cs : List Char) : List Char :=
  ((cs.dropWhile (fun c => c == ' ')).reverse.dropWhile (fun c => c == ' ')).reverse

/-- The operands, separated by commas outside quotes; `acc` holds the present operand reversed. -/
def splitOperands (quoted : Bool) : List Char → List Char → List (List Char)
  | acc, [] => [trim acc.reverse]
  | acc, c :: cs =>
    if c = quote then splitOperands (!quoted) (c :: acc) cs
    else if c = ',' && !quoted then trim acc.reverse :: splitOperands quoted [] cs
    else splitOperands quoted (c :: acc) cs

/-- The text between a pair of quotes. -/
def quotedText : List Char → Option (List Char)
  | c :: cs => if c = quote && cs.getLast? == some quote then some cs.dropLast else none
  | [] => none

/-- A field element: 0 to 255 (R90). -/
def byteOperand (cs : List Char) : Option Byte :=
  match number cs with
  | some n => if n < 256 then some (BitVec.ofNat 8 n) else none
  | none => none

/-- An error-correction level by its letter. -/
def levelOperand (cs : List Char) : Option EcLevel :=
  if cs = ['L'] then some .L else if cs = ['M'] then some .M
  else if cs = ['Q'] then some .Q else if cs = ['H'] then some .H else none

/-- A mode by its name. -/
def modeOperand (cs : List Char) : Option Mode :=
  if cs = "numeric".toList then some .numeric else if cs = "alphanumeric".toList then some .alphanumeric
  else if cs = "byte".toList then some .byte else if cs = "kanji".toList then some .kanji else none

/-- One line of a program. -/
inductive Line where
  /-- nothing but spaces and comment -/
  | blank
  /-- a command -/
  | command (i : Instr)
  /-- a pseudo-instruction (R92) -/
  | pseudo (p : Pseudo)
deriving DecidableEq, Repr

/-- A command whose operands are within the ranges of R90. -/
def inRange (i : Instr) : Option Line := if i.wellFormed then some (.command i) else none

/-- A mnemonic with no operand (R90; R92 (a)). -/
def line0 (m : List Char) : Option Line :=
  if m = "BS.CREATE".toList then some (.pseudo .createDefault)
  else if m = "BS.PAD".toList then inRange .bsPad
  else if m = "BS.FILL".toList then inRange .bsFill
  else if m = "BS.EXTRACT".toList then inRange .bsExtract
  else if m = "BS.LEN".toList then inRange .bsLen
  else if m = "BS.DUMP".toList then inRange .bsDump
  else none

/-- A mnemonic with one operand (R90; R92 (b), (e)). -/
def line1 (m x : List Char) : Option Line :=
  if m = "BS.CREATE".toList then (number x).bind (fun n => inRange (.bsCreate n))
  else if m = "BS.APPENDA".toList then (number x).bind (fun n => inRange (.bsAppendA n))
  else if m = "BS.APPEND".toList then
    (number x).bind (fun n => if (Instr.bsAppendA n).wellFormed then some (.pseudo (.appendAuto n)) else none)
  else if m = "BS.DEBUG".toList then
    if x = "true".toList then some (.pseudo (.debug true))
    else if x = "false".toList then some (.pseudo (.debug false))
    else none
  else none

/-- A GFU mnemonic with two field elements (R90). -/
def line2Bytes (m : List Char) (a b : Byte) : Option Line :=
  if m = "GF.ADD".toList then inRange (.gfAdd a b)
  else if m = "GF.SUB".toList then inRange (.gfSub a b)
  else if m = "GF.MUL".toList then inRange (.gfMul a b)
  else if m = "GF.DIV".toList then inRange (.gfDiv a b)
  else none

/-- A mnemonic with two operands (R90; R92 (d)). -/
def line2 (m x y : List Char) : Option Line :=
  if m = "BS.APPEND".toList then
    (number x).bind (fun v => (number y).bind (fun l => inRange (.bsAppend v l)))
  else if m = "GF.POW".toList then
    (byteOperand x).bind (fun b => (number y).bind (fun n => inRange (.gfPow b n)))
  else if m = "CCI.WIDTH".toList then
    (number x).bind (fun v => (modeOperand y).bind (fun k => some (.pseudo (.cciWidth v k))))
  else (byteOperand x).bind (fun a => (byteOperand y).bind (fun b => line2Bytes m a b))

/-- ENC.ALNUM with its three operands (R92 (c)). -/
def line3 (m x y z : List Char) : Option Line :=
  if m = "ENC.ALNUM".toList then
    (quotedText x).bind (fun t => (number y).bind (fun v => (levelOperand z).bind (fun l =>
      some (.pseudo (.encAlnum t v l)))))
  else none

/-- One line of text (R90); none where the line is no line of a program. -/
def parseLine (text : List Char) : Option Line :=
  let t := trim (code false text)
  let m := t.takeWhile (fun c => c != ' ')
  let rest := trim (t.dropWhile (fun c => c != ' '))
  if t = [] then some .blank
  else if rest = [] then line0 m
  else
    match splitOperands false [] rest with
    | [x] => line1 m x
    | [x, y] => line2 m x y
    | [x, y, z] => line3 m x y z
    | _ => none

/-- The commands a line makes the host issue (R91, R92). -/
def lineCommands (capacity : Int → EcLevel → Nat) (text : List Char) : Option Expansion :=
  match parseLine text with
  | some .blank => some ⟨[], none⟩
  | some (.command i) => some ⟨[i], none⟩
  | some (.pseudo p) => some (p.expand capacity)
  | none => none

end Sys2Proof.Assembler
end

