-- ==== Sys2Proof/Safety.lean ====
section
/-! DEFINITION. The terms claims are stated in: the invariants of the state (`10_state.md` R23, R25, R26, R35), a safe step,
and the reference arithmetic a claim compares the tables with (`41_field.md` R168). -/

namespace Sys2Proof.Machine

/-! ### Invariants of the BSP -/

/-- Cursor invariants of R25 (b) and (c); (a) holds by the type of `bitCur`. -/
def Bsp.CursorOk (b : Bsp) : Prop :=
  b.byteCur ≤ b.len ∧ (b.bitCur ≠ 0 → b.byteCur < b.len)

/-- The zero-ahead invariant of R26: every stream bit at or beyond the cursor is 0. -/
def Bsp.ZeroAhead (b : Bsp) : Prop :=
  ∀ k, b.pos ≤ k → k < 8 * b.len → b.mem.sbit k = false

/-- Nothing is listed at or beyond `LEN`: the storage is `MEM[0 .. LEN-1]` and no more (R24). -/
def Memory.Within (m : Memory) (n : Nat) : Prop := ∀ c ∈ m, c.1 < n

/-- The invariants of the BSP: the storage's contents in canonical form and within `LEN`, the cursor invariants (R25),
zero ahead of the cursor (R26), and `LEN <= BUF_MAX` (R23). -/
structure Bsp.Inv (p : Params) (b : Bsp) : Prop where
  /-- the canonical form -/
  canonical : b.mem.wf = true
  /-- the storage ends at `LEN` (R24) -/
  within : b.mem.Within b.len
  /-- R25 -/
  cursor : b.CursorOk
  /-- R26 -/
  zeroAhead : b.ZeroAhead
  /-- `LEN <= BUF_MAX` (R23) -/
  bounded : p.exceeds b.len = false

/-- The tables are the ones reset builds (R31, R40). -/
def Gfu.Built (g : Gfu) : Prop := g = Gfu.reset

/-- The invariant of the machine: the BSP's invariants, and the tables built. -/
structure State.Inv (s : State) : Prop where
  /-- the BSP's invariants -/
  bsp : s.bsp.Inv s.params
  /-- the tables -/
  gfu : s.gfu.Built

/-- The next word presented, if any, is not GF.POW with base 0, the one command the spec gives no meaning (R176, R242):
"the host must not issue it" (`70_reset_and_hazards.md` R256 (i)). -/
def State.NextDefined (s : State) : Prop :=
  ∀ cw rest n, s.commands = cw :: rest → decode cw ≠ .ok (.gfPow 0#8 n)

/-! ### Kinds of words and commands -/

/-- The words R89 lists as illegal, by the numbers in their fields (R81, R82): `OP` in 0x0, 0xD, 0xE, 0xF; `RSV != 0`;
`AUTO = 1` with `OP != 0x2`; `AUTO = 1` with `LENGTH != 0`; `LENGTH != 0` with `OP != 0x2`; a reserved payload bit set, in
formats N, C, G, P. -/
def WordIllegal (cw : CommandWord) : Prop :=
  let w := cw.toNat
  let op := w / 2 ^ 76 % 16
  let auto := w / 2 ^ 75 % 2
  let rsv := w / 2 ^ 72 % 8
  let length := w / 2 ^ 64 % 256
  let payload := w % 2 ^ 64
  op = 0x0 ∨ op = 0xD ∨ op = 0xE ∨ op = 0xF ∨ rsv ≠ 0 ∨ (auto = 1 ∧ op ≠ 0x2) ∨ (auto = 1 ∧ length ≠ 0) ∨
  (length ≠ 0 ∧ op ≠ 0x2) ∨ (3 ≤ op ∧ op ≤ 7 ∧ payload ≠ 0) ∨ (op = 1 ∧ payload / 2 ^ 32 ≠ 0) ∨
  (8 ≤ op ∧ op ≤ 0xB ∧ payload / 2 ^ 16 ≠ 0) ∨ (op = 0xC ∧ payload / 2 ^ 40 ≠ 0)

/-- The commands of the field unit (`41_field.md`); the others are the bit-stream packer's. -/
def fieldCommand : Instr → Bool
  | .gfAdd _ _ | .gfSub _ _ | .gfMul _ _ | .gfDiv _ _ | .gfPow _ _ => true
  | .bsCreate _ | .bsAppend _ _ | .bsAppendA _ | .bsPad | .bsFill | .bsExtract | .bsLen | .bsDump => false

/-- The commands that read state and change none (`20_memory.md` R58). -/
def readsOnly : Instr → Bool
  | .bsExtract | .bsLen | .bsDump | .gfAdd _ _ | .gfSub _ _ | .gfMul _ _ | .gfDiv _ _ | .gfPow _ _ => true
  | .bsCreate _ | .bsAppend _ _ | .bsAppendA _ | .bsPad | .bsFill => false

/-! ### Reading a stream -/

/-- The first `n` stream bits. -/
def Memory.streamBits (m : Memory) (n : Nat) : List Bool := (List.range n).map (fun k => m.sbit k)

/-- The group an append of `length` bits of `value` adds to the stream, most significant bit first (`20_memory.md` R52). -/
def groupBits (value length : Nat) : List Bool :=
  (List.range length).map (fun j => bit value (length - 1 - j))

/-- Appends issued one after the other; the first outcome that is no next state, or an error response, ends the run with
`none`. -/
def runAppends : List (Nat × Nat) → State → Option State
  | [], s => some s
  | (value, length) :: rest, s =>
    match exec (.bsAppend value length) s with
    | .next t => if t.response = some Response.done then runAppends rest t else none
    | _ => none

/-! ### Reference arithmetic of the field -/

/-- The carry-less product of two polynomials over GF(2), the low `n` bits of `b` taken (R168 (b)): the sum, by exclusive
or, of the `a * 2^i` with `bit(b, i) = 1`. -/
def carrylessProduct (a b : Nat) : Nat → Nat
  | 0 => 0
  | n + 1 => if bit b n then carrylessProduct a b n ^^^ (a * 2 ^ n) else carrylessProduct a b n

/-- The reduction of R168 (b): for the `n` bits from `i = n + 7` down to 8, `r <- r xor (POLY * 2^(i-8))` where bit `i` of
`r` is set. -/
def reducePoly (r : Nat) : Nat → Nat
  | 0 => r
  | n + 1 => reducePoly (if bit r (n + 8) then r ^^^ (Config.poly * 2 ^ n) else r) n

/-- GF.MUL as polynomial arithmetic modulo `POLY` (R168 (b)). -/
def polyMul (a b : Byte) : Nat := reducePoly (carrylessProduct a.toNat b.toNat 8) 7

/-- The product of `n` copies of `x` in the field (R175 (g)). -/
def Gfu.repeatedMul (g : Gfu) (x : Byte) : Nat → Byte
  | 0 => 1#8
  | n + 1 => g.mul (g.repeatedMul x n) x

end Sys2Proof.Machine
end

