-- ==== Sys2Proof/Certificates/Slice0/Obligations.lean ====
section
/-! DEFINITION. The statements about QRCORE for the provers. Each docstring names the rule of the spec it formalises; where
a clause is the model's own choice, it names the log entry. -/

open Sys2Proof Sys2Proof.Machine Sys2Proof.HostSeq

/-! ### Encoding -/

/-- Decoding the word of a well-formed command gives the command back, for every command and every operand the encoding
admits (`30_encoding.md` R82 to R85, R91). -/
def Obligations.DecodeOfEncodeIsTheInstruction : Prop :=
  ∀ i : Instr, i.wellFormed = true → decode (encode i) = .ok i

/-- Every word that decodes is the word of the command it decodes to, and that command is well formed: no two words mean
one command (`30_encoding.md` R82 to R85). -/
def Obligations.EncodeOfDecodeIsTheWord : Prop :=
  ∀ (cw : CommandWord) (i : Instr), decode cw = .ok i → i.wellFormed = true ∧ encode i = cw

/-- "The rows are pairwise disjoint, so at most one row matches" (`30_encoding.md` R84). -/
def Obligations.AtMostOneRowSelectsAWord : Prop :=
  ∀ (cw : CommandWord) (j k : Fin opRows.length),
    (opRows[j]).selects cw = true → (opRows[k]).selects cw = true → j = k

/-- `CW = {OP, AUTO, 0b000, LENGTH, PAYLOAD}` with the payload of the command's format, and R91's examples. -/
def Obligations.CommandWordLayout : Prop :=
  (∀ i : Instr, i.wellFormed = true → (encode i).toNat =
    match i with
    | .bsCreate cap => 0x1 * 2 ^ 76 + cap
    | .bsAppend value length => 0x2 * 2 ^ 76 + length * 2 ^ 64 + value
    | .bsAppendA value => 0x2 * 2 ^ 76 + 2 ^ 75 + value
    | .bsPad => 0x3 * 2 ^ 76
    | .bsFill => 0x4 * 2 ^ 76
    | .bsExtract => 0x5 * 2 ^ 76
    | .bsLen => 0x6 * 2 ^ 76
    | .bsDump => 0x7 * 2 ^ 76
    | .gfAdd a b => 0x8 * 2 ^ 76 + b.toNat * 2 ^ 8 + a.toNat
    | .gfSub a b => 0x9 * 2 ^ 76 + b.toNat * 2 ^ 8 + a.toNat
    | .gfMul a b => 0xA * 2 ^ 76 + b.toNat * 2 ^ 8 + a.toNat
    | .gfDiv a b => 0xB * 2 ^ 76 + b.toNat * 2 ^ 8 + a.toNat
    | .gfPow x n => 0xC * 2 ^ 76 + n * 2 ^ 8 + x.toNat) ∧
  encode (.bsAppend 5 3) = 0x20030000000000000005#80 ∧ encode (.bsAppendA 0x25) = 0x28000000000000000025#80 ∧
  encode (.bsCreate 16) = 0x10000000000000000010#80 ∧ encode (.gfMul 0x53#8 0xCA#8) = 0xA000000000000000CA53#80 ∧
  encode (.gfPow 2#8 255) = 0xC000000000000000FF02#80

/-- A few words written out from the encodings of the spec decode to the commands they stand for. -/
def Obligations.SampleWordsDecode : Prop :=
  decode 0x10000000000000000010#80 = .ok (.bsCreate 16) ∧ decode 0x20030000000000000005#80 = .ok (.bsAppend 5 3) ∧
  decode 0x28000000000000000025#80 = .ok (.bsAppendA 0x25) ∧ decode 0x50000000000000000000#80 = .ok .bsExtract ∧
  decode 0xB0000000000000000005#80 = .ok (.gfDiv 0x05#8 0x00#8) ∧
  decode 0xC0000000000000010002#80 = .ok (.gfPow 0x02#8 256)

/-- A word that matches no row raises IllegalCommand: it is a word of R89's list, the response has `STATUS = 0xF`, and no
state changes (`30_encoding.md` R89, `60_exceptions.md` R227). -/
def Obligations.IllegalWordsRaiseIllegalCommand : Prop :=
  (∀ cw : CommandWord, (∃ e, decode cw = .error e) ↔ WordIllegal cw) ∧
  (∀ (s : State) (cw : CommandWord) (rest : List CommandWord), s.commands = cw :: rest → WordIllegal cw →
    step s = .next ((s.withCommands rest).withResponse (.error .illegalCommand))) ∧
  (Response.error .illegalCommand).header = 0xF000000000#40 ∧
  WordIllegal 0x00000000000000000000#80 ∧ WordIllegal 0xFFFFFFFFFFFFFFFFFFFF#80

/-! ### The step -/

/-- When the oldest word presented decodes to a command, the step is that command executed with the word taken from the
port (`30_encoding.md` R80, R85). -/
def Obligations.StepRunsTheDecodedInstruction : Prop :=
  ∀ (s : State) (cw : CommandWord) (rest : List CommandWord) (i : Instr),
    s.commands = cw :: rest → decode cw = .ok i → step s = exec i (s.withCommands rest)

/-- With no word presented the block waits and all its state survives (`60_exceptions.md` R241). That waiting is a step
which changes nothing is the model's reading (log 2). -/
def Obligations.StepWaitsWithoutACommand : Prop :=
  ∀ s : State, s.commands = [] → step s = .next s

/-- A step takes exactly the oldest word and ends in one response, whatever response stood before it: nothing of an
earlier command's outcome is read (`30_encoding.md` R80, `60_exceptions.md` R226). -/
def Obligations.StepTakesOneWordAndAnswersOnce : Prop :=
  ∀ (s t : State) (cw : CommandWord) (rest : List CommandWord), s.commands = cw :: rest → step s = .next t →
    t.commands = rest ∧ (∃ r, t.response = some r) ∧ ∀ q, step { s with response := q } = .next t

/-! ### Errors -/

/-- What raising an error does (`60_exceptions.md` R224): the command ends, no state element has changed, the response has
the error's status, `VAL = 0`, `BITC = 0` and no data bytes, and nothing else is saved. -/
def Obligations.ErrorResponsesChangeNothing : Prop :=
  ∀ (s t : State) (cw : CommandWord) (rest : List CommandWord) (r : Response), s.commands = cw :: rest →
    step s = .next t → t.response = some r → r.status ≠ .ok →
    r.val = 0 ∧ r.bitc = 0 ∧ r.data = [] ∧ t = (s.withCommands rest).withResponse r

/-- The status codes, and which command raises which: "QRCORE itself emits only 0x0, 0x1, 0xE and 0xF"
(`60_exceptions.md` R221). -/
def Obligations.StatusCodesAndWhoRaisesThem : Prop :=
  Status.code .ok = 0x0#4 ∧ Status.code .divisionByZero = 0x1#4 ∧ Status.code .unsupportedMode = 0x2#4 ∧
  Status.code .unsupportedVersion = 0x3#4 ∧ Status.code .unsupportedErrorCorrectionLevel = 0x4#4 ∧
  Status.code .invalidCharacter = 0x5#4 ∧ Status.code .capacityExceeded = 0xE#4 ∧
  Status.code .illegalCommand = 0xF#4 ∧
  (∀ st : Status, Status.ofCode st.code = some st) ∧
  (∀ c : BitVec 4, 0x6 ≤ c.toNat → c.toNat ≤ 0xD → Status.ofCode c = none) ∧
  (∀ (s t : State) (cw : CommandWord) (rest : List CommandWord) (r : Response), s.commands = cw :: rest →
    step s = .next t → t.response = some r →
    (r.status.code = 0x0#4 ∨ r.status.code = 0x1#4 ∨ r.status.code = 0xE#4 ∨ r.status.code = 0xF#4) ∧
    (r.status = .divisionByZero → ∃ a, decode cw = .ok (.gfDiv a 0#8)) ∧
    (r.status = .capacityExceeded → (∃ cap, decode cw = .ok (.bsCreate cap)) ∨
      (∃ value length, decode cw = .ok (.bsAppend value length)) ∨ (∃ value, decode cw = .ok (.bsAppendA value))) ∧
    (r.status = .illegalCommand → ∃ e, decode cw = .error e))

/-- DivisionByZero is raised by GF.DIV exactly when `b = 0`, whatever `a` is, and by no other command; the response records
nothing but the code (`60_exceptions.md` R222). -/
def Obligations.DivisionByZeroExactlyForAZeroDivisor : Prop :=
  (∀ (a : Byte) (s : State), exec (.gfDiv a 0#8) s = .next (s.withResponse (.error .divisionByZero))) ∧
  (∀ (i : Instr) (s t : State) (r : Response), exec i s = .next t → t.response = some r →
    r.status = .divisionByZero → ∃ a, i = .gfDiv a 0#8) ∧
  (Response.error .divisionByZero).emitted = (0x1000000000#40, [])

/-- CapacityExceeded is raised by BS.CREATE exactly when `cap > BUF_MAX` and by the appends exactly when
`ceil8(P + length) > BUF_MAX`, with no state change; never with an infinite `BUF_MAX` (`60_exceptions.md` R228). -/
def Obligations.CapacityExceededExactlyBeyondTheBound : Prop :=
  (∀ (s : State) (m : Nat), s.params.bufMax = some m →
    (∀ cap, m < cap ↔ exec (.bsCreate cap) s = .next (s.withResponse (.error .capacityExceeded))) ∧
    (∀ value length, m < (s.bsp.pos + length + 7) / 8 ↔
      exec (.bsAppend value length) s = .next (s.withResponse (.error .capacityExceeded))) ∧
    (∀ value, m < (s.bsp.pos + bitlen value + 7) / 8 ↔
      exec (.bsAppendA value) s = .next (s.withResponse (.error .capacityExceeded)))) ∧
  (∀ (i : Instr) (s t : State) (r : Response), s.params.bufMax = none → exec i s = .next t →
    t.response = some r → r.status ≠ .capacityExceeded) ∧
  (Response.error .capacityExceeded).emitted = (0xE000000000#40, [])

/-! ### Bit-stream packer -/

/-- BS.CREATE (`40_bitstream.md` R112): format C; `cap` zero bytes and cursor (0, 0), whatever stood before; refused with
CapacityExceeded when `cap > BUF_MAX`. Everything else is unchanged. -/
def Obligations.CreateMakesAZeroFilledStream : Prop :=
  (∀ cap, cap < 2 ^ 32 → decode (BitVec.ofNat 80 (0x1 * 2 ^ 76 + cap)) = .ok (.bsCreate cap)) ∧
  (∀ (cap : Nat) (s : State), s.params.exceeds cap = false →
    ∃ b : Bsp, exec (.bsCreate cap) s = .next ((s.withBsp b).withResponse ⟨.ok, 0, 0, []⟩) ∧
      b.len = cap ∧ (∀ i, i < cap → b.mem.get i = 0x00#8) ∧ b.byteCur = 0 ∧ b.bitCur = 0) ∧
  (∀ (cap : Nat) (s : State), s.params.exceeds cap = true →
    exec (.bsCreate cap) s = .next (s.withResponse (.error .capacityExceeded)))

/-- The write step of an append (`40_bitstream.md` R117): stream bit `P + j` receives `bit(value, length - 1 - j)`, every
other bit of the storage keeps its value, the cursor moves to `P + length`; everything outside the BSP is unchanged. -/
def Obligations.AppendWritesTheGroupAtTheCursor : Prop :=
  ∀ (s : State) (value length : Nat), s.params.exceeds ((s.bsp.pos + length + 7) / 8) = false →
    ∃ b : Bsp, exec (.bsAppend value length) s = .next ((s.withBsp b).withResponse ⟨.ok, 0, 0, []⟩) ∧
      (∀ j, j < length → (b.mem.sbit (s.bsp.pos + j) = true ↔ value / 2 ^ (length - 1 - j) % 2 = 1)) ∧
      (∀ k, k < 8 * s.bsp.len → (k < s.bsp.pos ∨ s.bsp.pos + length ≤ k) → b.mem.sbit k = s.bsp.mem.sbit k) ∧
      b.byteCur = (s.bsp.pos + length) / 8 ∧ b.bitCur.val = (s.bsp.pos + length) % 8

/-- The growth step of an append (`40_bitstream.md` R116): the storage grows only when `need > LEN`, to
`GROW(LEN, need)` with `need <= GROW(LEN, need) <= BUF_MAX` (`need` under exact fit); existing bytes keep their values but
for the group's bits, new bytes are zero but for them; beyond `BUF_MAX` CapacityExceeded and no state change. -/
def Obligations.AppendGrowsTheStorage : Prop :=
  ∀ (s : State) (value length need : Nat), need = (s.bsp.pos + length + 7) / 8 →
    (s.params.exceeds need = true →
      exec (.bsAppend value length) s = .next (s.withResponse (.error .capacityExceeded))) ∧
    (s.params.exceeds need = false →
      ∃ b : Bsp, exec (.bsAppend value length) s = .next ((s.withBsp b).withResponse ⟨.ok, 0, 0, []⟩) ∧
        (need ≤ s.bsp.len → b.len = s.bsp.len) ∧
        (s.bsp.len < need → b.len = s.params.grow s.bsp.len need ∧ need ≤ b.len ∧ s.params.exceeds b.len = false ∧
          (s.params.growTable = [] → b.len = need) ∧
          (∀ k, 8 * s.bsp.len ≤ k → k < 8 * b.len → (k < s.bsp.pos ∨ s.bsp.pos + length ≤ k) →
            b.mem.sbit k = false)) ∧
        (∀ k, k < 8 * s.bsp.len → (k < s.bsp.pos ∨ s.bsp.pos + length ≤ k) → b.mem.sbit k = s.bsp.mem.sbit k))

/-- BS.APPENDA (`40_bitstream.md` R120): format AA; the append of `bitlen(value)` bits, where `bitlen` is the minimum
number of bits, 1 for 0 (`00_scope.md` R11). -/
def Obligations.AutomaticAppendUsesTheMinimalWidth : Prop :=
  (∀ value, value < 2 ^ 64 → decode (BitVec.ofNat 80 (0x2 * 2 ^ 76 + 2 ^ 75 + value)) = .ok (.bsAppendA value)) ∧
  bitlen 0 = 1 ∧
  (∀ v, 1 ≤ v → 1 ≤ bitlen v ∧ 2 ^ (bitlen v - 1) ≤ v ∧ v < 2 ^ bitlen v) ∧
  (∀ v, v < 2 ^ 64 → 1 ≤ bitlen v ∧ bitlen v ≤ 64) ∧
  (∀ (value : Nat) (s : State), exec (.bsAppendA value) s = exec (.bsAppend value (bitlen value)) s) ∧
  (∀ (value : Nat) (s : State), s.params.exceeds ((s.bsp.pos + bitlen value + 7) / 8) = false →
    ∃ b : Bsp, exec (.bsAppendA value) s = .next ((s.withBsp b).withResponse ⟨.ok, 0, 0, []⟩) ∧
      b.pos = s.bsp.pos + bitlen value)

/-- An append of length 0 changes nothing, whatever the value (`40_bitstream.md` R119 (c)), where the invariants of R25 and
R23 hold. -/
def Obligations.AppendOfLengthZeroChangesNothing : Prop :=
  ∀ (s : State) (value : Nat), s.bsp.CursorOk → s.params.exceeds s.bsp.len = false →
    exec (.bsAppend value 0) s = .next (s.withResponse ⟨.ok, 0, 0, []⟩)

/-- BS.PAD (`40_bitstream.md` R122): the cursor goes to the next byte boundary if it is not at one; `MEM` and `LEN` are
never changed, and nothing outside the BSP is. -/
def Obligations.PadAlignsTheCursor : Prop :=
  decode 0x30000000000000000000#80 = .ok .bsPad ∧
  ∀ s : State, ∃ b : Bsp, exec .bsPad s = .next ((s.withBsp b).withResponse ⟨.ok, 0, 0, []⟩) ∧
    b.mem = s.bsp.mem ∧ b.len = s.bsp.len ∧ b.bitCur = 0 ∧
    (s.bsp.bitCur = 0 → b.byteCur = s.bsp.byteCur) ∧ (s.bsp.bitCur ≠ 0 → b.byteCur = s.bsp.byteCur + 1)

/-- BS.FILL (`40_bitstream.md` R125): 0xEC and 0x11 alternate, from 0xEC on, in the bytes from the aligned cursor to the end
of the storage; every other byte keeps its value, `LEN` is unchanged, the cursor goes to `(LEN, 0)`; nothing outside the
BSP changes. -/
def Obligations.FillPadsToTheEndOfTheStorage : Prop :=
  decode 0x40000000000000000000#80 = .ok .bsFill ∧
  ∀ s : State, ∃ b : Bsp, exec .bsFill s = .next ((s.withBsp b).withResponse ⟨.ok, 0, 0, []⟩) ∧
    b.len = s.bsp.len ∧ b.byteCur = s.bsp.len ∧ b.bitCur = 0 ∧
    (∀ k, (s.bsp.pos + 7) / 8 + k < s.bsp.len →
      b.mem.get ((s.bsp.pos + 7) / 8 + k) = if k % 2 = 0 then 0xEC#8 else 0x11#8) ∧
    (∀ i, (i < (s.bsp.pos + 7) / 8 ∨ s.bsp.len ≤ i) → b.mem.get i = s.bsp.mem.get i)

/-- BS.PAD and BS.FILL are idempotent: the second of two in a row changes nothing (`40_bitstream.md` R123 (b), R126 (a)). -/
def Obligations.PadAndFillAreIdempotent : Prop :=
  ∀ s t : State, (exec .bsPad s = .next t → exec .bsPad t = .next t) ∧ (exec .bsFill s = .next t → exec .bsFill t = .next t)

/-- BS.EXTRACT (`40_bitstream.md` R128): the response is `n = BYTE_CUR + (BIT_CUR != 0 ? 1 : 0)` with the bytes
`MEM[0 .. n-1]`, `n = ceil8(P) <= LEN` where R25 holds; no state changes. -/
def Obligations.ExtractReturnsTheWrittenPrefix : Prop :=
  decode 0x50000000000000000000#80 = .ok .bsExtract ∧
  ∀ s : State, s.bsp.CursorOk →
    ∃ (n : Nat) (data : List Byte), exec .bsExtract s = .next (s.withResponse ⟨.ok, 0, n, data⟩) ∧
      (s.bsp.bitCur = 0 → n = s.bsp.byteCur) ∧ (s.bsp.bitCur ≠ 0 → n = s.bsp.byteCur + 1) ∧
      n = (s.bsp.pos + 7) / 8 ∧ n ≤ s.bsp.len ∧ data.length = n ∧
      ∀ i, i < n → data[i]? = some (s.bsp.mem.get i)

/-- BS.EXTRACT stops with `storageOutOfRange` exactly when the prefix would reach past `LEN`, where `MemRead` is not defined
(`00_scope.md` R12); by R25 no state a run reaches is such a state. The stop is the model's (log 8). -/
def Obligations.ExtractPastTheStorageFaults : Prop :=
  ∀ s : State, exec .bsExtract s = .fault .storageOutOfRange ↔ s.bsp.len < (s.bsp.pos + 7) / 8

/-- BS.LEN (`40_bitstream.md` R131): the response is the capacity `LEN`, 1 after reset, `cap` after `BS.CREATE cap` and any
appends totalling at most `8*cap` bits; no state changes; `LEN` changes only by BS.CREATE and by a growing append. -/
def Obligations.LenReturnsTheCapacity : Prop :=
  decode 0x60000000000000000000#80 = .ok .bsLen ∧
  (∀ s : State, exec .bsLen s = .next (s.withResponse ⟨.ok, 0, s.bsp.len, []⟩)) ∧
  exec .bsLen State.reset = .next (State.reset.withResponse ⟨.ok, 0, 1, []⟩) ∧
  (∀ (s t u : State) (cap : Nat) (groups : List (Nat × Nat)), exec (.bsCreate cap) s = .next t →
    t.response = some Response.done → runAppends groups t = some u → (groups.map (fun g => g.2)).sum ≤ 8 * cap →
    exec .bsLen u = .next (u.withResponse ⟨.ok, 0, cap, []⟩)) ∧
  (∀ (i : Instr) (s t : State), exec i s = .next t → t.bsp.len ≠ s.bsp.len →
    (∃ cap, i = .bsCreate cap) ∨
    (∃ value length, i = .bsAppend value length ∧ s.bsp.len < (s.bsp.pos + length + 7) / 8) ∨
    (∃ value, i = .bsAppendA value ∧ s.bsp.len < (s.bsp.pos + bitlen value + 7) / 8))

/-- BS.DUMP (`40_bitstream.md` R134): the response is `VAL = LEN`, `BITC = BIT_CUR` and all the bytes `MEM[0 .. LEN-1]`; no
state changes. -/
def Obligations.DumpReturnsEveryByte : Prop :=
  decode 0x70000000000000000000#80 = .ok .bsDump ∧
  ∀ s : State, ∃ data : List Byte,
    exec .bsDump s = .next (s.withResponse ⟨.ok, s.bsp.bitCur, s.bsp.len, data⟩) ∧
    data.length = s.bsp.len ∧ ∀ i, i < s.bsp.len → data[i]? = some (s.bsp.mem.get i)

/-- Side effects of reads (`20_memory.md` R58): BS.EXTRACT, BS.LEN, BS.DUMP and the five GFU commands change no state, and
repeating one gives the same response. -/
def Obligations.ReadsChangeNoState : Prop :=
  ∀ (i : Instr) (s t : State), readsOnly i = true → exec i s = .next t →
    t.bsp = s.bsp ∧ t.gfu = s.gfu ∧ t.params = s.params ∧ t.commands = s.commands ∧ exec i t = .next t

/-- The concatenation law (`40_bitstream.md` R137): after BS.CREATE and any list of appends that all answered OK, `P` is the
sum of the lengths, the stream is the concatenation of the groups followed by zeros, and `LEN` is `cap` where that is
enough (and exactly what is needed under exact fit where it is not; exact fit as the empty table is the model's form, log 5).
With an infinite `BUF_MAX` all appends answer OK. -/
def Obligations.AppendsConcatenate : Prop :=
  ∀ (s t u : State) (cap : Nat) (groups : List (Nat × Nat)),
    exec (.bsCreate cap) s = .next t → t.response = some Response.done →
    (s.params.bufMax = none → ∃ v, runAppends groups t = some v) ∧
    (runAppends groups t = some u →
      u.bsp.pos = (groups.map (fun g => g.2)).sum ∧
      u.bsp.mem.streamBits u.bsp.pos = groups.flatMap (fun g => groupBits g.1 g.2) ∧
      (∀ k, u.bsp.pos ≤ k → k < 8 * u.bsp.len → u.bsp.mem.sbit k = false) ∧
      (ceil8 u.bsp.pos ≤ cap → u.bsp.len = cap) ∧
      (cap < ceil8 u.bsp.pos → ceil8 u.bsp.pos ≤ u.bsp.len ∧
        (s.params.growTable = [] → u.bsp.len = ceil8 u.bsp.pos)))

/-- The stream after BS.CREATE does not depend on the stream before it: nothing of the old stream survives
(`40_bitstream.md` R113 (a)), and nothing of it reaches a later command of the BSP (`70_reset_and_hazards.md` R257). -/
def Obligations.CreateForgetsTheOldStream : Prop :=
  ∀ (s s' t t' : State) (cap : Nat) (groups : List (Nat × Nat)), s.params = s'.params →
    exec (.bsCreate cap) s = .next t → exec (.bsCreate cap) s' = .next t' → t.response = some Response.done →
    t'.response = some Response.done ∧
    (runAppends groups t).map (fun u => u.bsp) = (runAppends groups t').map (fun u => u.bsp)

/-! ### Invariants and whole-machine rules -/

/-- Cursor invariants (`10_state.md` R25): true after reset and after every command. -/
def Obligations.CursorInvariantsAreKept : Prop :=
  State.reset.bsp.CursorOk ∧
  ∀ s t : State, s.bsp.CursorOk → step s = .next t →
    t.bsp.bitCur.val ≤ 7 ∧ t.bsp.byteCur ≤ t.bsp.len ∧ (t.bsp.bitCur ≠ 0 → t.bsp.byteCur < t.bsp.len)

/-- The zero-ahead invariant (`10_state.md` R26): true after reset and after every command. -/
def Obligations.StreamIsZeroAheadOfTheCursor : Prop :=
  State.reset.bsp.ZeroAhead ∧
  ∀ s t : State, s.bsp.ZeroAhead → step s = .next t →
    ∀ k, t.bsp.pos ≤ k → k < 8 * t.bsp.len → t.bsp.mem.sbit k = false

/-- The invariant of the machine is kept by every step: storage in canonical form and within `LEN` (R24), cursor invariants
(R25), zero ahead (R26), `LEN <= BUF_MAX` (R23), tables built (R31). The canonical form is the model's (log 9). -/
def Obligations.EveryStepKeepsTheInvariant : Prop :=
  ∀ s t : State, s.Inv → step s = .next t → t.Inv

/-- The state after reset meets the invariant of the machine. -/
def Obligations.ResetMeetsTheInvariant : Prop := State.reset.Inv

/-- Every command is total but GF.POW with base 0 (`00_scope.md` R13), and there is no access fault (`20_memory.md` R59): from
a state that meets the invariant, whose next word is not that command, the step answers a next state. -/
def Obligations.StepsFromTheInvariantComplete : Prop :=
  ∀ s : State, s.Inv → s.NextDefined → ∃ t, step s = .next t

/-- The tables are the same after any command (`10_state.md` R31: "No command writes them"). That the parameters and the
words still waiting, which the model holds in its state, are the same too is said of the model's own fields: log 1 for the
words, log 4 and log 5 for the parameters, which R41 says are no state of QRCORE. -/
def Obligations.NoCommandWritesTables : Prop :=
  (∀ (i : Instr) (s t : State), exec i s = .next t →
    t.gfu = s.gfu ∧ t.params = s.params ∧ t.commands = s.commands) ∧
  (∀ s t : State, step s = .next t → t.gfu = s.gfu ∧ t.params = s.params)

/-- The two units are independent (`00_scope.md` R2): a BSP command's outcome does not depend on the GFU's state and it does
not write it; a GFU command's outcome does not depend on the BSP's state and it does not write it. -/
def Obligations.TheUnitsAreIndependent : Prop :=
  (∀ (i : Instr) (s t : State) (g : Gfu), fieldCommand i = false → exec i s = .next t →
    t.gfu = s.gfu ∧ exec i { s with gfu := g } = .next { t with gfu := g }) ∧
  (∀ (i : Instr) (s t : State) (b : Bsp), fieldCommand i = true → exec i s = .next t →
    t.bsp = s.bsp ∧ exec i (s.withBsp b) = .next (t.withBsp b))

/-- Which commands write which state (`40_bitstream.md` R138), for every command that answers OK. -/
def Obligations.WhichCommandsWriteWhichState : Prop :=
  ∀ s t : State,
    (∀ cap, exec (.bsCreate cap) s = .next t → t.response = some Response.done →
      (∀ i, i < cap → t.bsp.mem.get i = 0x00#8) ∧ t.bsp.len = cap ∧ t.bsp.byteCur = 0 ∧ t.bsp.bitCur = 0) ∧
    (∀ value length, (exec (.bsAppend value length) s = .next t ∨
        (length = bitlen value ∧ exec (.bsAppendA value) s = .next t)) → t.response = some Response.done →
      (∀ k, k < 8 * t.bsp.len → (k < s.bsp.pos ∨ s.bsp.pos + length ≤ k) →
        t.bsp.mem.sbit k = if k < 8 * s.bsp.len then s.bsp.mem.sbit k else false) ∧
      (t.bsp.len ≠ s.bsp.len → s.bsp.len < (s.bsp.pos + length + 7) / 8) ∧ s.bsp.len ≤ t.bsp.len ∧
      t.bsp.byteCur = (s.bsp.pos + length) / 8 ∧ t.bsp.bitCur.val = (s.bsp.pos + length) % 8) ∧
    (exec .bsPad s = .next t → t.bsp.mem = s.bsp.mem ∧ t.bsp.len = s.bsp.len ∧
      t.bsp.byteCur = s.bsp.byteCur + (if s.bsp.bitCur ≠ 0 then 1 else 0) ∧ t.bsp.bitCur = 0) ∧
    (exec .bsFill s = .next t →
      (∀ i, (i < (s.bsp.pos + 7) / 8 ∨ s.bsp.len ≤ i) → t.bsp.mem.get i = s.bsp.mem.get i) ∧
      t.bsp.len = s.bsp.len ∧ t.bsp.byteCur = s.bsp.len ∧ t.bsp.bitCur = 0) ∧
    (exec .bsExtract s = .next t → t.bsp = s.bsp) ∧ (exec .bsLen s = .next t → t.bsp = s.bsp) ∧
    (exec .bsDump s = .next t → t.bsp = s.bsp) ∧
    (∀ i, fieldCommand i = false → exec i s = .next t → ∀ r, t.response = some r → i ≠ .bsExtract → i ≠ .bsDump →
      r.data = []) ∧
    (∀ r, exec .bsExtract s = .next t → t.response = some r →
      r.data = (List.range ((s.bsp.pos + 7) / 8)).map s.bsp.mem.get) ∧
    (∀ r, exec .bsLen s = .next t → t.response = some r → r.val = s.bsp.len) ∧
    (∀ r, exec .bsDump s = .next t → t.response = some r →
      r.data = (List.range s.bsp.len).map s.bsp.mem.get ∧ r.bitc = s.bsp.bitCur)

/-! ### Responses and reset -/

/-- The response (`30_encoding.md` R86): one per command; the header's fields, bit 35 zero; `BITC` is `BIT_CUR` for BS.DUMP and
0 otherwise; no data bytes but for BS.EXTRACT and BS.DUMP, whose count is `VAL` (R87) and which stand in ascending storage index. That the header of a `VAL` of more than 32 bits shows
its low 32 bits is the model's choice, log 10. -/
def Obligations.ResponseHeaderAndCount : Prop :=
  (∀ r : Response, r.header.toNat = r.status.code.toNat * 2 ^ 36 + r.bitc.val * 2 ^ 32 + r.val % 2 ^ 32) ∧
  (∀ (i : Instr) (s t : State) (r : Response), exec i s = .next t → t.response = some r →
    r.bitc = (if i = .bsDump then s.bsp.bitCur else 0) ∧
    r.data.length = (if i = .bsExtract ∨ i = .bsDump then r.val else 0) ∧
    ∀ (k : Nat) (b : Byte), r.data[k]? = some b → b = s.bsp.mem.get k) ∧
  (∀ (i : Instr) (s t : State), exec i s = .next t → ∃ r, t.response = some r)

/-- With `BUF_MAX` within the bound of the hardware form, every `VAL` the block emits fits the header's 32 bits and the
header determines status, `BITC` and `VAL` (`30_encoding.md` R86). -/
def Obligations.EmittedValuesFitTheHeader : Prop :=
  ∀ (s t : State) (cw : CommandWord) (rest : List CommandWord) (r : Response) (m : Nat), s.Inv →
    s.params.bufMax = some m → m ≤ 2 ^ 32 - 1 → s.commands = cw :: rest → step s = .next t → t.response = some r →
    r.val < 2 ^ 32 ∧ Status.ofCode (r.header.extractLsb' 36 4) = some r.status ∧
    (r.header.extractLsb' 32 3).toNat = r.bitc.val ∧ (r.header.extractLsb' 0 32).toNat = r.val

/-- The state after reset (`10_state.md` R40, `70_reset_and_hazards.md` R250): one zero byte, cursor (0, 0), the state
`BS.CREATE 1` leaves; the tables of the construction; no command in progress, no response pending. That `BS.CREATE 1`
completes there uses the `BUF_MAX` of `State.reset`, the model's choice, log 4. -/
def Obligations.ResetState : Prop :=
  State.reset.bsp.len = 1 ∧ State.reset.bsp.mem.get 0 = 0x00#8 ∧ State.reset.bsp.byteCur = 0 ∧
  State.reset.bsp.bitCur = 0 ∧
  exec (.bsCreate 1) State.reset = .next (State.reset.withResponse ⟨.ok, 0, 0, []⟩) ∧
  (∀ i, i ≤ 511 → State.reset.gfu.exp.entries[i]? = some (Tables.doubled (i % 255))) ∧
  (∀ i : Fin 255, State.reset.gfu.log.entries[(Tables.doubled i).toNat - 1]? = some i) ∧
  State.reset.commands = [] ∧ State.reset.response = none

/-! ### Field unit -/

/-- GF.ADD and GF.SUB (`41_field.md` R160, R163): format G; the response is `a xor b`, for every pair; no state changes. -/
def Obligations.AddAndSubAreXor : Prop :=
  (∀ a b : Byte, decode (BitVec.ofNat 80 (0x8 * 2 ^ 76 + b.toNat * 2 ^ 8 + a.toNat)) = .ok (.gfAdd a b)) ∧
  (∀ a b : Byte, decode (BitVec.ofNat 80 (0x9 * 2 ^ 76 + b.toNat * 2 ^ 8 + a.toNat)) = .ok (.gfSub a b)) ∧
  (∀ (a b : Byte) (s : State), exec (.gfAdd a b) s = .next (s.withResponse ⟨.ok, 0, a.toNat ^^^ b.toNat, []⟩)) ∧
  (∀ (a b : Byte) (s : State), exec (.gfSub a b) s = .next (s.withResponse ⟨.ok, 0, a.toNat ^^^ b.toNat, []⟩))

/-- GF.MUL (`41_field.md` R166): format G; 0 if either operand is 0, otherwise `EXP[(LOG[a] + LOG[b]) mod 255]`, from the
tables of the state; no state changes. -/
def Obligations.MulReadsTheTables : Prop :=
  (∀ a b : Byte, decode (BitVec.ofNat 80 (0xA * 2 ^ 76 + b.toNat * 2 ^ 8 + a.toNat)) = .ok (.gfMul a b)) ∧
  (∀ (a b : Byte) (s : State), a = 0#8 ∨ b = 0#8 →
    exec (.gfMul a b) s = .next (s.withResponse ⟨.ok, 0, 0, []⟩)) ∧
  (∀ (a b : Byte) (s : State) (la lb : Fin 255) (v : Byte), a ≠ 0#8 → b ≠ 0#8 →
    s.gfu.log.entries[a.toNat - 1]? = some la → s.gfu.log.entries[b.toNat - 1]? = some lb →
    s.gfu.exp.entries[(la.val + lb.val) % 255]? = some v →
    exec (.gfMul a b) s = .next (s.withResponse ⟨.ok, 0, v.toNat, []⟩))

/-- GF.DIV (`41_field.md` R170): format G; DivisionByZero when `b = 0`, tested first; 0 when `a = 0`; otherwise
`EXP[(LOG[a] - LOG[b] + 255) mod 255]`, from the tables of the state; no state changes. -/
def Obligations.DivReadsTheTables : Prop :=
  (∀ a b : Byte, decode (BitVec.ofNat 80 (0xB * 2 ^ 76 + b.toNat * 2 ^ 8 + a.toNat)) = .ok (.gfDiv a b)) ∧
  (∀ (a : Byte) (s : State), exec (.gfDiv a 0#8) s = .next (s.withResponse ⟨.divisionByZero, 0, 0, []⟩)) ∧
  (∀ (b : Byte) (s : State), b ≠ 0#8 → exec (.gfDiv 0#8 b) s = .next (s.withResponse ⟨.ok, 0, 0, []⟩)) ∧
  (∀ (a b : Byte) (s : State) (la lb : Fin 255) (v : Byte), a ≠ 0#8 → b ≠ 0#8 →
    s.gfu.log.entries[a.toNat - 1]? = some la → s.gfu.log.entries[b.toNat - 1]? = some lb →
    s.gfu.exp.entries[(((la.val : Int) - lb.val + 255) % 255).toNat]? = some v →
    exec (.gfDiv a b) s = .next (s.withResponse ⟨.ok, 0, v.toNat, []⟩))

/-- GF.POW (`41_field.md` R174): format P; `EXP[(LOG[x] * n) mod 255]` for every base other than 0 and every natural `n`,
from the tables of the state; no state changes. Base 0 is the matter of R176. -/
def Obligations.PowReadsTheTables : Prop :=
  (∀ (x : Byte) (n : Nat), n < 2 ^ 32 →
    decode (BitVec.ofNat 80 (0xC * 2 ^ 76 + n * 2 ^ 8 + x.toNat)) = .ok (.gfPow x n)) ∧
  (∀ (x : Byte) (n : Nat) (s : State) (lx : Fin 255) (v : Byte), x ≠ 0#8 →
    s.gfu.log.entries[x.toNat - 1]? = some lx → s.gfu.exp.entries[(lx.val * n) % 255]? = some v →
    exec (.gfPow x n) s = .next (s.withResponse ⟨.ok, 0, v.toNat, []⟩)) ∧
  (∀ (x : Byte) (n : Nat) (s : State), x ≠ 0#8 → ∃ r, exec (.gfPow x n) s = .next (s.withResponse r))

/-- GF.POW with base 0 has no result: the model refuses the command, for every exponent and in every state, and for no
other base (`41_field.md` R176). -/
def Obligations.PowOfBaseZeroIsRefused : Prop :=
  ∀ (x : Byte) (n : Nat) (s : State), exec (.gfPow x n) s = .refused .powZeroBase ↔ x = 0#8

/-- Equivalent forms of GF.MUL (`41_field.md` R168), with the tables built: (a) without the reduction,
`EXP[LOG[a] + LOG[b]]` from the 512-entry table; (b) the carry-less product reduced modulo `POLY`, on every pair. -/
def Obligations.MulIsPolynomialMultiplication : Prop :=
  ∀ (s : State) (a b : Byte), s.gfu.Built →
    (∀ (la lb : Fin 255) (v : Byte), a ≠ 0#8 → b ≠ 0#8 →
      s.gfu.log.entries[a.toNat - 1]? = some la → s.gfu.log.entries[b.toNat - 1]? = some lb →
      s.gfu.exp.entries[la.val + lb.val]? = some v → s.gfu.mul a b = v) ∧
    exec (.gfMul a b) s = .next (s.withResponse ⟨.ok, 0, polyMul a b, []⟩)

/-- Laws of GF.MUL (`41_field.md` R167), with the tables built: commutative, associative, distributive over the addition,
identity 1, zero exactly for a zero operand, 255 multiplications of 1 by 2 return to 1, and the rule's examples. -/
def Obligations.MulIsFieldMultiplication : Prop :=
  ∀ g : Gfu, g.Built →
    (∀ (a b : Byte) (s : State), s.gfu = g → exec (.gfMul a b) s = .next (s.withResponse (.value (g.mul a b).toNat))) ∧
    (∀ a b, g.mul a b = g.mul b a) ∧ (∀ a b c, g.mul (g.mul a b) c = g.mul a (g.mul b c)) ∧
    (∀ a b c, g.mul a (b ^^^ c) = g.mul a b ^^^ g.mul a c) ∧ (∀ a, g.mul a 1#8 = a) ∧
    (∀ a b, g.mul a b = 0#8 ↔ a = 0#8 ∨ b = 0#8) ∧
    g.repeatedMul 2#8 255 = 1#8 ∧ (∀ n, 1 ≤ n → n < 255 → g.repeatedMul 2#8 n ≠ 1#8) ∧
    g.mul 0x02#8 0x80#8 = 0x1D#8 ∧ g.mul 0x8E#8 0x02#8 = 0x01#8

/-- Laws of GF.DIV (`41_field.md` R171), with the tables built: DivisionByZero for 0 by 0, `a / a = 1`, `a / 1 = a`, the
exact inverse of the multiplication by a fixed non-zero divisor both ways, and the rule's examples. -/
def Obligations.DivInvertsMul : Prop :=
  ∀ g : Gfu, g.Built →
    (∀ s : State, exec (.gfDiv 0#8 0#8) s = .next (s.withResponse (.error .divisionByZero))) ∧
    (∀ (a b : Byte) (hb : b ≠ 0#8) (s : State), s.gfu = g →
      exec (.gfDiv a b) s = .next (s.withResponse (.value (g.div a b hb).toNat))) ∧
    (∀ b (hb : b ≠ 0#8), g.div 0#8 b hb = 0#8) ∧
    (∀ a (ha : a ≠ 0#8), g.div a a ha = 1#8) ∧ (∀ a, g.div a 1#8 (by decide) = a) ∧
    (∀ a b (hb : b ≠ 0#8), g.mul (g.div a b hb) b = a) ∧ (∀ a b (hb : b ≠ 0#8), g.div (g.mul a b) b hb = a) ∧
    (∀ a (ha : a ≠ 0#8), g.mul a (g.div 1#8 a ha) = 1#8) ∧
    g.div 1#8 0x02#8 (by decide) = 0x8E#8 ∧ g.div 1#8 0x03#8 (by decide) = 0xF4#8 ∧
    g.div 1#8 0x53#8 (by decide) = 0x8C#8 ∧ g.div 1#8 0xFF#8 (by decide) = 0xFD#8 ∧
    g.div 0x53#8 0xCA#8 (by decide) = 0x6D#8 ∧ g.mul 0x6D#8 (g.div 0xCA#8 0x53#8 (by decide)) = 1#8 ∧
    g.div 0xCA#8 0x53#8 (by decide) ≠ 0x6D#8 ∧ g.div 0x02#8 0x80#8 (by decide) = 0x36#8

/-- Laws of GF.POW (`41_field.md` R175), with the tables built, for a base other than 0: exponents 0 and 1, base 1, period
255, agreement with repeated GF.MUL, and the rule's examples. -/
def Obligations.PowIsRepeatedMultiplication : Prop :=
  ∀ g : Gfu, g.Built →
    (∀ (x : Byte) (n : Nat) (hx : x ≠ 0#8) (s : State), s.gfu = g →
      exec (.gfPow x n) s = .next (s.withResponse (.value (g.pow x n hx).toNat))) ∧
    (∀ x (hx : x ≠ 0#8), g.pow x 0 hx = 1#8) ∧ (∀ x (hx : x ≠ 0#8), g.pow x 1 hx = x) ∧
    (∀ n, g.pow 1#8 n (by decide) = 1#8) ∧
    (∀ x n (hx : x ≠ 0#8), g.pow x n hx = g.pow x (n % 255) hx) ∧ (∀ x (hx : x ≠ 0#8), g.pow x 255 hx = 1#8) ∧
    (∀ x n (hx : x ≠ 0#8), g.pow x n hx = g.repeatedMul x n) ∧
    g.pow 2#8 8 (by decide) = 0x1D#8 ∧ g.pow 2#8 254 (by decide) = 0x8E#8 ∧ g.pow 0x8E#8 254 (by decide) = 2#8 ∧
    g.pow 2#8 (2 ^ 32 - 1) (by decide) = 1#8

/-- The tables reset builds are those of the construction (`10_state.md` R32) and meet the invariants of R35 and R37. -/
def Obligations.TablesAreTheConstruction : Prop :=
  (∀ i, i ≤ 254 → Gfu.reset.exp.entries[i]? = some (Tables.doubled i)) ∧
  (∀ i : Fin 255, Gfu.reset.log.entries[(Tables.doubled i).toNat - 1]? = some i) ∧
  Gfu.reset.exp.entries[255]? = some 0x01#8 ∧
  (∀ i, 256 ≤ i → i ≤ 511 → Gfu.reset.exp.entries[i]? = Gfu.reset.exp.entries[i - 255]?) ∧
  (∀ x : Byte, x ≠ 0#8 → ∃ l : Fin 255, Gfu.reset.log.entries[x.toNat - 1]? = some l ∧
    Gfu.reset.exp.entries[l.val]? = some x) ∧
  (∀ v : Byte, (Tables.double v).toNat = polyMul v 2#8)

/-- "All results are guaranteed to lie in [0,255]": every response of a GFU command has `VAL <= 255`
(`41_field.md` R151). -/
def Obligations.FieldResultsAreBytes : Prop :=
  ∀ (i : Instr) (s t : State) (r : Response), fieldCommand i = true → exec i s = .next t → t.response = some r →
    r.val ≤ 255

/-- A GFU command's response is a function of its operands alone, the tables being built, and it writes nothing
(`41_field.md` R152). -/
def Obligations.FieldResponsesDependOnOperandsOnly : Prop :=
  ∀ i : Instr, fieldCommand i = true → (∃ n, i = .gfPow 0#8 n) ∨
    ∃ r : Response, ∀ s : State, s.gfu.Built → exec i s = .next (s.withResponse r)

/-! ### Parameters -/

/-- Every admissible growth policy, at any finite number of growths, is the policy of some table: the parameter
`params.growTable` leaves out no run of any implementation (`40_bitstream.md` R116; the form of the parameter is the
model's, log 5). -/
def Obligations.EveryGrowthPolicyIsSomeTable : Prop :=
  ∀ (policy : Nat → Nat → Nat) (asked : List (Nat × Nat)) (bufMax : Option Nat),
    (∀ q, q ∈ asked → q.2 ≤ policy q.1 q.2 ∧ ∀ m, bufMax = some m → policy q.1 q.2 ≤ m) →
    ∃ table, ∀ q, q ∈ asked → Params.grow ⟨bufMax, table⟩ q.1 q.2 = policy q.1 q.2

/-! ### Host sequences -/

/-- `CCI.WIDTH version, mode` (`42_host_sequences.md` R196). -/
def Obligations.CharacterCountWidth : Prop :=
  (∀ version mode, (version < 1 ∨ 40 < version) → cciWidth version mode = .error .unsupportedVersion) ∧
  (∀ version mode, 1 ≤ version → version ≤ 40 → mode ≠ .alphanumeric →
    cciWidth version mode = .error .unsupportedMode) ∧
  (∀ version, 1 ≤ version → version ≤ 9 → cciWidth version .alphanumeric = .ok 9) ∧
  (∀ version, 10 ≤ version → version ≤ 26 → cciWidth version .alphanumeric = .ok 11) ∧
  (∀ version, 27 ≤ version → version ≤ 40 → cciWidth version .alphanumeric = .ok 13)

/-- ENC.ALNUM's failures (`42_host_sequences.md` R201): version first, then level, both before any command;
InvalidCharacter exactly when a character has no value, with the header already issued. -/
def Obligations.AlphanumericEncoderFailures : Prop :=
  ∀ (capacity : Int → EcLevel → Nat) (data : List Char) (version : Int) (level : EcLevel),
    (version ≠ 1 → encAlnum capacity data version level = ⟨[], some .unsupportedVersion⟩) ∧
    (version = 1 → level ≠ .M → encAlnum capacity data version level = ⟨[], some .unsupportedErrorCorrectionLevel⟩) ∧
    (version = 1 → level = .M →
      ((encAlnum capacity data version level).failure = some .invalidCharacter ↔
        ∃ c, c ∈ data ∧ charValue c = none) ∧
      ((encAlnum capacity data version level).failure = none ↔ ∀ c, c ∈ data → charValue c ≠ none) ∧
      ∃ later, (encAlnum capacity data version level).commands =
        .bsCreate (capacity 1 .M) :: .bsAppend 2 4 :: .bsAppend data.length 9 :: later)

/-- ENC.ALNUM's bits before padding, `4 + 9 + 11*(m div 2) + 6*(m mod 2) + 4` (`42_host_sequences.md` R202 (b)), each group
fits its width, and the sequence ends with the terminator, BS.PAD and BS.FILL (R200). -/
def Obligations.AlphanumericEncoderBits : Prop :=
  ∀ (capacity : Int → EcLevel → Nat) (data : List Char), (∀ c, c ∈ data → charValue c ≠ none) →
    appendedBits (encAlnum capacity data 1 .M).commands =
      4 + 9 + 11 * (data.length / 2) + 6 * (data.length % 2) + 4 ∧
    (∀ value length, Instr.bsAppend value length ∈ (packGroups data).commands → value < 2 ^ length) ∧
    ∃ earlier, (encAlnum capacity data 1 .M).commands = earlier ++ [.bsAppend 0 4, .bsPad, .bsFill]

/-- The plain debug string is the binary digits of every stored byte, `8*LEN` characters, each `0` or `1`, character
`8*i + j` the bit of weight `2^(7-j)` of byte `i` (`42_host_sequences.md` R206). -/
def Obligations.PlainDebugStringIsTheStoredBits : Prop :=
  ∀ r : Response, (debugString r false).length = 8 * r.data.length ∧
    ∀ (i j : Nat) (b : Byte), j < 8 → r.data[i]? = some b →
      (debugString r false)[8 * i + j]? = some (if b.toNat / 2 ^ (7 - j) % 2 = 1 then '1' else '0')
end

