-- ==== Sys2Proof/Laws/Encoding.lean ====
section
/-! SUPPORT. Command words as numbers: the value of an assembled word, and its fields (`30_encoding.md` R81, R91). -/

namespace Sys2Proof

/-- Concatenation as arithmetic (`00_scope.md` R10). -/
theorem toNat_append_eq_add {m n : Nat} (x : BitVec m) (y : BitVec n) :
    (x ++ y).toNat = x.toNat * 2 ^ n + y.toNat := by
  rw [BitVec.toNat_append, ← Nat.shiftLeft_add_eq_or_of_lt y.isLt, Nat.shiftLeft_eq]

/-- The number an assembled word is (R91). -/
theorem assemble_toNat (op : BitVec 4) (auto : BitVec 1) (length : BitVec 8) (payload : BitVec 64) :
    (assemble op auto length payload).toNat =
      op.toNat * 2 ^ 76 + auto.toNat * 2 ^ 75 + length.toNat * 2 ^ 64 + payload.toNat := by
  simp only [assemble, toNat_append_eq_add, BitVec.toNat_ofNat]
  omega

/-- The number a payload of format G is (R82). -/
theorem payloadG_toNat (a b : Byte) : (payloadG a b).toNat = b.toNat * 2 ^ 8 + a.toNat := by
  simp only [payloadG, toNat_append_eq_add, BitVec.toNat_ofNat]
  omega

/-- The fields of an assembled word are the ones it was assembled from. -/
theorem fields_assemble (op : BitVec 4) (auto : BitVec 1) (length : BitVec 8) (payload : BitVec 64) :
    Field.op (assemble op auto length payload) = op ∧ Field.auto (assemble op auto length payload) = auto ∧
    Field.rsv (assemble op auto length payload) = 0#3 ∧ Field.length (assemble op auto length payload) = length ∧
    Field.value (assemble op auto length payload) = payload := by
  have h1 := op.isLt
  have h2 := auto.isLt
  have h3 := length.isLt
  have h4 := payload.isLt
  refine ⟨?_, ?_, ?_, ?_, ?_⟩ <;> apply BitVec.eq_of_toNat_eq <;>
    simp only [Field.op, Field.auto, Field.rsv, Field.length, Field.value, BitVec.extractLsb'_toNat, assemble_toNat,
      Nat.shiftRight_eq_div_pow, BitVec.toNat_ofNat] <;> omega

/-- Masking off the low `k` bits, as arithmetic. -/
theorem and_highMask (w : Nat) (k : Nat) (hk : k ≤ 80) (hw : w < 2^80) :
  w &&& (2^80 - 2^k) = w / 2^k * 2^k := by
  apply Nat.eq_of_testBit_eq
  intro i
  rw [Nat.testBit_and]
  have e : (2^80 - 2^k) = (2^(80-k) - 1) * 2^k := by
    rw [Nat.sub_mul, ← Nat.pow_add]; congr 2 ; omega; omega
  rw [e, Nat.testBit_mul_two_pow, Nat.testBit_mul_two_pow, Nat.testBit_two_pow_sub_one, Nat.testBit_div_two_pow]
  by_cases hi : k ≤ i
  · have : i - k + k = i := by omega
    simp only [hi, decide_true, Bool.true_and, this]
    by_cases h80 : i < 80
    · have : i - k < 80 - k := by omega
      simp [this]
    · have : w.testBit i = false :=
        Nat.testBit_lt_two_pow (Nat.lt_of_lt_of_le hw (Nat.pow_le_pow_right (by omega) (by omega)))
      simp [this]
  · simp [hi]

/-- Selecting a row whose mask leaves out the low `k` bits, as arithmetic. -/
theorem selects_iff (pat mask : CommandWord) (cw : CommandWord) (k c : Nat) (hk : k ≤ 80) (hm : mask.toNat = 2^80 - 2^k)
    (hp : pat.toNat = c * 2^k) :
    (cw &&& mask == pat) = decide (cw.toNat / 2^k = c) := by
  rw [Bool.beq_eq_decide_eq]
  congr 1
  rw [← BitVec.toNat_inj, BitVec.toNat_and, hm, and_highMask _ _ hk cw.isLt, hp]
  exact propext (Nat.mul_left_inj (by positivity))

/-- The search among the rows as a chain of tests. -/
theorem find_rows (rows : List OpRow) (cw : CommandWord) (e : IllegalWord) :
   (match rows.find? (fun r => r.selects cw) with | some r => Except.ok (r.operands cw) | none => .error e) =
   rows.foldr (fun r acc => if r.selects cw = true then Except.ok (r.operands cw) else acc) (.error e) := by
  induction rows with
  | nil => rfl
  | cons r rs ih =>
    rw [List.find?_cons, List.foldr_cons]
    cases h : r.selects cw
    · simpa using ih
    · simp

/-- The decoder as a chain of tests on the word's number, one per row of R84. -/
theorem decode_eq (cw : CommandWord) : decode cw =
   (if cw.toNat / 2^32 = 0x1 * 2^44 then .ok (.bsCreate (cw.toNat % 2^32)) else
   if cw.toNat / 2^72 = 0x20 then .ok (.bsAppend (cw.toNat % 2^64) (cw.toNat / 2^64 % 2^8)) else
   if cw.toNat / 2^64 = 0x2800 then .ok (.bsAppendA (cw.toNat % 2^64)) else
   if cw.toNat = 0x3 * 2^76 then .ok .bsPad else
   if cw.toNat = 0x4 * 2^76 then .ok .bsFill else
   if cw.toNat = 0x5 * 2^76 then .ok .bsExtract else
   if cw.toNat = 0x6 * 2^76 then .ok .bsLen else
   if cw.toNat = 0x7 * 2^76 then .ok .bsDump else
   if cw.toNat / 2^16 = 0x8 * 2^60 then .ok (.gfAdd (BitVec.ofNat 8 cw.toNat) (BitVec.ofNat 8 (cw.toNat / 2^8))) else
   if cw.toNat / 2^16 = 0x9 * 2^60 then .ok (.gfSub (BitVec.ofNat 8 cw.toNat) (BitVec.ofNat 8 (cw.toNat / 2^8))) else
   if cw.toNat / 2^16 = 0xA * 2^60 then .ok (.gfMul (BitVec.ofNat 8 cw.toNat) (BitVec.ofNat 8 (cw.toNat / 2^8))) else
   if cw.toNat / 2^16 = 0xB * 2^60 then .ok (.gfDiv (BitVec.ofNat 8 cw.toNat) (BitVec.ofNat 8 (cw.toNat / 2^8))) else
   if cw.toNat / 2^40 = 0xC * 2^36 then .ok (.gfPow (BitVec.ofNat 8 cw.toNat) (cw.toNat / 2^8 % 2^32)) else
    .error (illegalReason cw)) := by
  have hw := cw.isLt
  have f0 : ∀ n, cw.extractLsb' 0 n = BitVec.ofNat n cw.toNat := by
    intro n; apply BitVec.eq_of_toNat_eq; simp
  have f8 : ∀ n, cw.extractLsb' 8 n = BitVec.ofNat n (cw.toNat / 2^8) := by
    intro n; apply BitVec.eq_of_toNat_eq; simp [Nat.shiftRight_eq_div_pow]
  have f64 : ∀ n, cw.extractLsb' 64 n = BitVec.ofNat n (cw.toNat / 2^64) := by
    intro n; apply BitVec.eq_of_toNat_eq; simp [Nat.shiftRight_eq_div_pow]
  unfold decode
  refine (find_rows opRows cw _).trans ?_
  simp only [opRows, bspRows, gfuRows, List.cons_append, List.nil_append, List.foldr_cons, List.foldr_nil, OpRow.selects]
  have e := fun p m k c hk hm hp => selects_iff p m cw k c hk hm hp
  simp only [e 0x10000000000000000000#80 0xFFFFFFFFFFFF00000000#80 32 (0x1 * 2^44) (by omega) (by decide) (by decide),
    e 0x20000000000000000000#80 0xFF000000000000000000#80 72 0x20 (by omega) (by decide) (by decide),
    e 0x28000000000000000000#80 0xFFFF0000000000000000#80 64 0x2800 (by omega) (by decide) (by decide),
    e 0x30000000000000000000#80 0xFFFFFFFFFFFFFFFFFFFF#80 0 (0x3 * 2^76) (by omega) (by decide) (by decide),
    e 0x40000000000000000000#80 0xFFFFFFFFFFFFFFFFFFFF#80 0 (0x4 * 2^76) (by omega) (by decide) (by decide),
    e 0x50000000000000000000#80 0xFFFFFFFFFFFFFFFFFFFF#80 0 (0x5 * 2^76) (by omega) (by decide) (by decide),
    e 0x60000000000000000000#80 0xFFFFFFFFFFFFFFFFFFFF#80 0 (0x6 * 2^76) (by omega) (by decide) (by decide),
    e 0x70000000000000000000#80 0xFFFFFFFFFFFFFFFFFFFF#80 0 (0x7 * 2^76) (by omega) (by decide) (by decide),
    e 0x80000000000000000000#80 0xFFFFFFFFFFFFFFFF0000#80 16 (0x8 * 2^60) (by omega) (by decide) (by decide),
    e 0x90000000000000000000#80 0xFFFFFFFFFFFFFFFF0000#80 16 (0x9 * 2^60) (by omega) (by decide) (by decide),
    e 0xA0000000000000000000#80 0xFFFFFFFFFFFFFFFF0000#80 16 (0xA * 2^60) (by omega) (by decide) (by decide),
    e 0xB0000000000000000000#80 0xFFFFFFFFFFFFFFFF0000#80 16 (0xB * 2^60) (by omega) (by decide) (by decide),
    e 0xC0000000000000000000#80 0xFFFFFFFFFF0000000000#80 40 (0xC * 2^36) (by omega) (by decide) (by decide),
    Nat.pow_zero, Nat.div_one, Field.cap, Field.value, Field.length, Field.a, Field.b, Field.x, Field.n, f0, f8, f64,
    decide_eq_true_eq, BitVec.toNat_ofNat]

end Sys2Proof
end

