-- ==== Sys2Proof/Laws/Memory.lean ====
section
/-! SUPPORT. The storage: a read after a write, the canonical form, stream bits, and what the loops of the append's write
step and of BS.FILL leave, each said once. -/

namespace Sys2Proof.Machine

/-! ### Bytes -/

@[simp] theorem Memory.get_nil (i : Nat) : Memory.get [] i = 0#8 := rfl

theorem Memory.get_filter (m : Memory) (q : Nat → Bool) (i : Nat) :
    Memory.get (m.filter (fun c => q c.1)) i = if q i then m.get i else 0#8 := by
  induction m with
  | nil => simp
  | cons c rest ih =>
    obtain ⟨a, b⟩ := c
    by_cases hq : q a = true
    · rw [List.filter_cons_of_pos (by simpa using hq)]
      simp only [Memory.get, ih]
      by_cases hi : i = a
      · subst hi; simp [hq]
      · simp [hi]
    · rw [List.filter_cons_of_neg (by simpa using hq), ih]
      by_cases hi : i = a
      · subst hi; simp [hq]
      · simp [Memory.get, hi]

theorem Memory.get_insert (m : Memory) (i j : Nat) (v : Byte) (hne : ∀ c ∈ m, c.1 ≠ i) :
    Memory.get (m.insert i v) j = if j = i then v else m.get j := by
  induction m with
  | nil => simp [Memory.insert, Memory.get]
  | cons c rest ih =>
    obtain ⟨a, b⟩ := c
    have ha : a ≠ i := hne (a, b) (by simp)
    have hrest : ∀ c ∈ rest, c.1 ≠ i := fun c hc => hne c (by simp [hc])
    unfold Memory.insert
    split
    · simp [Memory.get]
    · simp only [Memory.get, ih hrest]
      by_cases hj : j = a
      · subst hj; simp [ha]
      · simp [hj]

theorem Memory.mem_filter_ne (m : Memory) (i : Nat) : ∀ c ∈ m.filter (fun c => c.1 ≠ i), c.1 ≠ i := by
  intro c hc
  simpa using (List.mem_filter.1 hc).2

/-- A read after a write: the byte written, and every other byte as before. -/
theorem Memory.get_set (m : Memory) (i j : Nat) (v : Byte) :
    (m.set i v).get j = if j = i then v else m.get j := by
  have hf : Memory.get (m.filter (fun c => c.1 ≠ i)) j = if j = i then 0#8 else m.get j := by
    have := Memory.get_filter m (fun a => decide (a ≠ i)) j
    by_cases hj : j = i <;> simp_all
  unfold Memory.set
  split
  · next hv => rw [hf, hv]
  · rw [Memory.get_insert _ _ _ _ (Memory.mem_filter_ne m i), hf]
    by_cases hj : j = i <;> simp [hj]

theorem Memory.get_below (m : Memory) (n i : Nat) : (m.below n).get i = if i < n then m.get i else 0#8 := by
  have := Memory.get_filter m (fun a => decide (a < n)) i
  simpa [Memory.below] using this

/-! ### The canonical form -/

theorem Memory.wfFrom_cons (lo a : Nat) (b : Byte) (rest : Memory) :
    Memory.wfFrom lo ((a, b) :: rest) = true ↔ lo ≤ a ∧ b ≠ 0#8 ∧ Memory.wfFrom (a + 1) rest = true := by
  simp [Memory.wfFrom, and_assoc]

theorem Memory.wfFrom_mono {lo lo' : Nat} {m : Memory} (h : lo' ≤ lo) (hm : Memory.wfFrom lo m = true) :
    Memory.wfFrom lo' m = true := by
  cases m with
  | nil => rfl
  | cons c rest =>
    obtain ⟨a, b⟩ := c
    rw [Memory.wfFrom_cons] at *
    exact ⟨by omega, hm.2.1, hm.2.2⟩

theorem Memory.wfFrom_filter (m : Memory) (q : Host.Cell → Bool) (lo : Nat) (h : Memory.wfFrom lo m = true) :
    Memory.wfFrom lo (m.filter q) = true := by
  induction m generalizing lo with
  | nil => rfl
  | cons c rest ih =>
    obtain ⟨a, b⟩ := c
    rw [Memory.wfFrom_cons] at h
    by_cases hq : q (a, b) = true
    · rw [List.filter_cons_of_pos hq, Memory.wfFrom_cons]
      exact ⟨h.1, h.2.1, ih _ h.2.2⟩
    · rw [List.filter_cons_of_neg hq]
      exact Memory.wfFrom_mono (by omega) (ih _ h.2.2)

theorem Memory.wfFrom_insert (m : Memory) (i lo : Nat) (v : Byte) (hv : v ≠ 0#8) (hlo : lo ≤ i)
    (hne : ∀ c ∈ m, c.1 ≠ i) (h : Memory.wfFrom lo m = true) : Memory.wfFrom lo (m.insert i v) = true := by
  induction m generalizing lo with
  | nil => simp [Memory.insert, hlo, hv, Memory.wfFrom]
  | cons c rest ih =>
    obtain ⟨a, b⟩ := c
    have ha : a ≠ i := hne (a, b) (by simp)
    rw [Memory.wfFrom_cons] at h
    unfold Memory.insert
    split
    · next hlt =>
      rw [Memory.wfFrom_cons, Memory.wfFrom_cons]
      exact ⟨hlo, hv, by omega, h.2⟩
    · next hge =>
      rw [Memory.wfFrom_cons]
      exact ⟨h.1, h.2.1, ih _ (by omega) (fun c hc => hne c (by simp [hc])) h.2.2⟩

/-- A write keeps the canonical form. -/
theorem Memory.wf_set (m : Memory) (i : Nat) (v : Byte) (h : m.wf = true) : (m.set i v).wf = true := by
  unfold Memory.set
  have hf := Memory.wfFrom_filter m (fun c => c.1 ≠ i) 0 h
  split
  · exact hf
  · next hv => exact Memory.wfFrom_insert _ i 0 v hv (by omega) (Memory.mem_filter_ne m i) hf

/-- Cutting the storage keeps the canonical form. -/
theorem Memory.wf_below (m : Memory) (n : Nat) (h : m.wf = true) : (m.below n).wf = true :=
  Memory.wfFrom_filter m _ 0 h

theorem Memory.mem_insert (m : Memory) (i : Nat) (v : Byte) (c : Host.Cell) (h : c ∈ m.insert i v) :
    c = (i, v) ∨ c ∈ m := by
  induction m with
  | nil => left; simpa [Memory.insert] using h
  | cons d rest ih =>
    obtain ⟨a, b⟩ := d
    unfold Memory.insert at h
    split at h
    · simpa using h
    · rcases List.mem_cons.1 h with h | h
      · exact .inr (by simp [h])
      · rcases ih h with h | h
        · exact .inl h
        · exact .inr (by simp [h])

/-- A write inside the storage keeps the contents inside. -/
theorem Memory.within_set (m : Memory) (i n : Nat) (v : Byte) (hi : i < n) (h : m.Within n) : (m.set i v).Within n := by
  intro c hc
  unfold Memory.set at hc
  split at hc
  · exact h c (List.mem_filter.1 hc).1
  · rcases Memory.mem_insert _ _ _ _ hc with rfl | hc
    · exact hi
    · exact h c (List.mem_filter.1 hc).1

theorem Memory.within_below (m : Memory) (n k : Nat) (h : n ≤ k) : (m.below n).Within k := by
  intro c hc
  have := (List.mem_filter.1 hc).2
  simp only [decide_eq_true_eq] at this
  omega

/-! ### Reads of a run of bytes -/

@[simp] theorem Memory.read_length (m : Memory) (addr n : Nat) : (m.read addr n).length = n := by
  induction n generalizing addr with
  | zero => rfl
  | succ n ih => simp [Memory.read, ih]

theorem Memory.read_getElem? (m : Memory) (addr n i : Nat) (h : i < n) :
    (m.read addr n)[i]? = some (m.get (addr + i)) := by
  induction n generalizing addr i with
  | zero => omega
  | succ n ih =>
    cases i with
    | zero => simp [Memory.read]
    | succ i =>
      simp only [Memory.read, List.getElem?_cons_succ]
      rw [ih (addr + 1) i (by omega)]
      congr 2; omega

theorem Memory.read_eq_map (m : Memory) (n : Nat) : m.read 0 n = (List.range n).map m.get := by
  apply List.ext_getElem?
  intro i
  by_cases h : i < n
  · rw [Memory.read_getElem? m 0 n i h]; simp [h]
  · rw [List.getElem?_eq_none (by simpa using h), List.getElem?_eq_none (by simpa using h)]

/-! ### Bits -/

theorem bit_eq_testBit (v i : Nat) : bit v i = v.testBit i := by
  rw [Nat.testBit_eq_decide_div_mod_eq]
  unfold bit
  exact Bool.beq_eq_decide_eq _ _

theorem bit_eq_true_iff (v i : Nat) : bit v i = true ↔ v / 2 ^ i % 2 = 1 := by simp [bit]

theorem byteBit_eq_getLsbD (b : Byte) (k : Nat) : byteBit b k = b.getLsbD (7 - k) := by
  unfold byteBit
  rw [bit_eq_testBit, BitVec.getLsbD]

@[simp] theorem byteBit_zero (k : Nat) : byteBit 0#8 k = false := by
  rw [byteBit_eq_getLsbD]; simp

/-- Replacing a bit replaces that one bit and leaves the other seven (R12). -/
theorem byteBit_byteWithBit (b : Byte) (k j : Nat) (v : Bool) (hk : k < 8) (hj : j < 8) :
    byteBit (byteWithBit b k v) j = if j = k then v else byteBit b j := by
  have hpow : BitVec.ofNat 8 (2 ^ (7 - k)) = BitVec.twoPow 8 (7 - k) := by
    apply BitVec.eq_of_toNat_eq; simp [BitVec.toNat_twoPow]
  rw [byteBit_eq_getLsbD, byteBit_eq_getLsbD]
  unfold byteWithBit
  rw [hpow]
  have hiff : (7 - k = 7 - j) ↔ j = k := by omega
  by_cases hjk : j = k
  · subst hjk
    cases v <;> simp [BitVec.getLsbD_twoPow]; omega
  · cases v <;> simp [BitVec.getLsbD_twoPow, hjk] <;> omega

/-- A stream bit after one stream bit was replaced. -/
theorem Memory.sbit_setSbit (m : Memory) (p k : Nat) (v : Bool) :
    (m.setSbit p v).sbit k = if k = p then v else m.sbit k := by
  unfold Memory.sbit Memory.setSbit
  rw [Memory.get_set]
  by_cases hb : k / 8 = p / 8
  · rw [if_pos hb, byteBit_byteWithBit _ _ _ _ (by omega) (by omega), hb]
    by_cases hk : k = p
    · subst hk; simp
    · rw [if_neg hk, if_neg (by omega)]
  · rw [if_neg hb, if_neg (fun h => hb (by rw [h]))]

theorem Memory.sbit_below (m : Memory) (n k : Nat) : (m.below n).sbit k = if k < 8 * n then m.sbit k else false := by
  unfold Memory.sbit
  rw [Memory.get_below]
  by_cases h : k / 8 < n
  · rw [if_pos h, if_pos (by omega)]
  · rw [if_neg h, if_neg (by omega), byteBit_zero]

/-- What the write step's loop leaves (R117): the group's bits at `p .. p+n-1`, every other stream bit as before. -/
theorem Memory.sbit_writeGroup (m : Memory) (p v n k : Nat) :
    (m.writeGroup p v n).sbit k = if p ≤ k ∧ k < p + n then bit v (n - 1 - (k - p)) else m.sbit k := by
  induction n generalizing m p with
  | zero => rw [if_neg (by omega)]; rfl
  | succ n ih =>
    unfold Memory.writeGroup
    rw [ih, Memory.sbit_setSbit]
    by_cases h1 : p + 1 ≤ k ∧ k < p + 1 + n
    · rw [if_pos h1, if_pos (by omega)]
      congr 1; omega
    · rw [if_neg h1]
      by_cases h2 : k = p
      · rw [if_pos h2, if_pos (by omega)]
        congr 1; omega
      · rw [if_neg h2, if_neg (by omega)]

theorem Memory.wf_writeGroup (m : Memory) (p v n : Nat) (h : m.wf = true) : (m.writeGroup p v n).wf = true := by
  induction n generalizing m p with
  | zero => exact h
  | succ n ih => exact ih _ _ (Memory.wf_set _ _ _ h)

theorem Memory.within_writeGroup (m : Memory) (p v n len : Nat) (hn : p + n ≤ 8 * len) (h : m.Within len) :
    (m.writeGroup p v n).Within len := by
  induction n generalizing m p with
  | zero => exact h
  | succ n ih => exact ih _ _ (by omega) (Memory.within_set _ _ _ _ (by omega) h)

/-! ### The fill loop -/

/-- What BS.FILL's loop leaves (R125): pad byte number `j` at index `s + j`, for `j` from `k` on, every other byte as
before. -/
theorem Memory.get_fillPads (m : Memory) (s k n i : Nat) :
    (m.fillPads s k n).get i = if s + k ≤ i ∧ i < s + k + n then padByte (i - s) else m.get i := by
  induction n generalizing m k with
  | zero => rw [if_neg (by omega)]; rfl
  | succ n ih =>
    unfold Memory.fillPads
    rw [ih, Memory.get_set]
    by_cases h1 : s + (k + 1) ≤ i ∧ i < s + (k + 1) + n
    · rw [if_pos h1, if_pos (by omega)]
    · rw [if_neg h1]
      by_cases h2 : i = s + k
      · rw [if_pos h2, if_pos (by omega), h2]
        congr 1; omega
      · rw [if_neg h2, if_neg (by omega)]

theorem Memory.wf_fillPads (m : Memory) (s k n : Nat) (h : m.wf = true) : (m.fillPads s k n).wf = true := by
  induction n generalizing m k with
  | zero => exact h
  | succ n ih => exact ih _ _ (Memory.wf_set _ _ _ h)

theorem Memory.within_fillPads (m : Memory) (s k n len : Nat) (hn : s + k + n ≤ len ∨ n = 0) (h : m.Within len) :
    (m.fillPads s k n).Within len := by
  induction n generalizing m k with
  | zero => exact h
  | succ n ih => exact ih _ _ (by omega) (Memory.within_set _ _ _ _ (by omega) h)

end Sys2Proof.Machine
end

