-- ==== Sys2Proof/Laws/Operands.lean ====
section
/-! SUPPORT. What the operand arithmetic computes, said once: the automatic length (`00_scope.md` R11) and the table reads
(`10_state.md` R30, R36). -/

namespace Sys2Proof.Machine

/-! ### `bitlen` -/

theorem bitlenFuel_bounds (fuel v : Nat) (h1 : 1 ≤ v) (h : v < 2 ^ (fuel + 1)) :
    1 ≤ bitlenFuel fuel v ∧ 2 ^ (bitlenFuel fuel v - 1) ≤ v ∧ v < 2 ^ bitlenFuel fuel v := by
  induction fuel generalizing v with
  | zero => simp [bitlenFuel]; omega
  | succ fuel ih =>
    unfold bitlenFuel
    split
    · simp; omega
    · obtain ⟨ha, hb, hc⟩ := ih (v / 2) (by omega) (by omega)
      obtain ⟨k, hk⟩ : ∃ k, bitlenFuel fuel (v / 2) = k + 1 := ⟨bitlenFuel fuel (v / 2) - 1, by omega⟩
      rw [hk] at hb hc ⊢
      rw [Nat.add_sub_cancel] at hb ⊢
      rw [Nat.pow_succ] at hc ⊢
      refine ⟨by omega, by omega, ?_⟩
      rw [Nat.pow_succ]
      omega

/-- For `v >= 1`, `bitlen(v)` is the `k >= 1` with `2^(k-1) <= v < 2^k` (R11). -/
theorem bitlen_bounds (v : Nat) (h : 1 ≤ v) : 1 ≤ bitlen v ∧ 2 ^ (bitlen v - 1) ≤ v ∧ v < 2 ^ bitlen v :=
  bitlenFuel_bounds _ v h Nat.lt_log2_self

/-! ### Table reads -/

/-- `LOG[x]` is the entry of the table at `x`. -/
theorem Gfu.logAt_of_getElem? (g : Gfu) (x : Byte) (hx : x ≠ 0#8) (l : Fin 255)
    (h : g.log.entries[x.toNat - 1]? = some l) : g.logAt x hx = l.val := by
  obtain ⟨_, h2⟩ := List.getElem?_eq_some_iff.1 h
  unfold Gfu.logAt
  rw [h2]

/-- `EXP[k mod 255]` is the entry of the table there. -/
theorem Gfu.expMod_of_getElem? (g : Gfu) (k : Nat) (v : Byte) (h : g.exp.entries[k % 255]? = some v) :
    g.expMod k = v := by
  obtain ⟨_, h2⟩ := List.getElem?_eq_some_iff.1 h
  exact h2

/-- A logarithm is 0 to 254 (R30). -/
theorem Gfu.logAt_lt (g : Gfu) (x : Byte) (hx : x ≠ 0#8) : g.logAt x hx < 255 := Fin.isLt _

/-! ### The tables reset builds -/

theorem Tables.expMod_reset_lt : ∀ i : Fin 255, Gfu.reset.expMod i.val = Tables.doubled i.val := by decide +kernel

theorem Tables.doubled_255 : Tables.doubled 255 = 1#8 := by decide +kernel

theorem Tables.logAt_doubled_lt :
    ∀ i : Fin 255, ∃ h : Tables.doubled i.val ≠ 0#8, Gfu.reset.logAt (Tables.doubled i.val) h = i.val := by decide +kernel

/-- 255 doublings lead back (R32). -/
theorem Tables.doubled_add_255 (n : Nat) : Tables.doubled (n + 255) = Tables.doubled n := by
  induction n with
  | zero => exact Tables.doubled_255
  | succ n ih =>
    have e : n + 1 + 255 = (n + 255) + 1 := by omega
    rw [e]
    exact congrArg Tables.double ih

/-- Doublings count modulo 255. -/
theorem Tables.doubled_mod (n : Nat) : Tables.doubled n = Tables.doubled (n % 255) := by
  induction n using Nat.strong_induction_on with
  | _ n ih =>
    by_cases h : n < 255
    · rw [Nat.mod_eq_of_lt h]
    · have e := Tables.doubled_add_255 (n - 255)
      have e1 : n - 255 + 255 = n := by omega
      have e2 : (n - 255) % 255 = n % 255 := by omega
      rw [e1] at e
      rw [e, ih (n - 255) (by omega), e2]

/-- What a read of the exponent table gives after reset, for every index of the exponent arithmetic (R153). -/
theorem Gfu.expMod_reset (k : Nat) : Gfu.reset.expMod k = Tables.doubled k := by
  rw [Tables.doubled_mod, ← Tables.expMod_reset_lt ⟨k % 255, by omega⟩]
  unfold Gfu.expMod
  congr 1
  simp

theorem Tables.doubled_ne_zero (n : Nat) : Tables.doubled n ≠ 0#8 := by
  rw [Tables.doubled_mod]
  exact (Tables.logAt_doubled_lt ⟨n % 255, by omega⟩).1

/-- What a read of the logarithm table gives after reset. -/
theorem Gfu.logAt_reset (n : Nat) (h : Tables.doubled n ≠ 0#8) : Gfu.reset.logAt (Tables.doubled n) h = n % 255 := by
  obtain ⟨_, e⟩ := Tables.logAt_doubled_lt ⟨n % 255, by omega⟩
  simp only [← Tables.doubled_mod] at e
  exact e

end Sys2Proof.Machine
end

