-- ==== Sys2Proof/Laws/State.lean ====
section
/-! SUPPORT. One lemma per field per update of the state and of the BSP, so that no later proof unfolds a record update. -/

namespace Sys2Proof.Machine

variable (s : State) (b : Bsp) (r : Response) (cws : List CommandWord)

@[simp] theorem State.withResponse_bsp : (s.withResponse r).bsp = s.bsp := rfl
@[simp] theorem State.withResponse_gfu : (s.withResponse r).gfu = s.gfu := rfl
@[simp] theorem State.withResponse_params : (s.withResponse r).params = s.params := rfl
@[simp] theorem State.withResponse_commands : (s.withResponse r).commands = s.commands := rfl
@[simp] theorem State.withResponse_response : (s.withResponse r).response = some r := rfl

@[simp] theorem State.withBsp_bsp : (s.withBsp b).bsp = b := rfl
@[simp] theorem State.withBsp_gfu : (s.withBsp b).gfu = s.gfu := rfl
@[simp] theorem State.withBsp_params : (s.withBsp b).params = s.params := rfl
@[simp] theorem State.withBsp_commands : (s.withBsp b).commands = s.commands := rfl
@[simp] theorem State.withBsp_response : (s.withBsp b).response = s.response := rfl

@[simp] theorem State.withCommands_bsp : (s.withCommands cws).bsp = s.bsp := rfl
@[simp] theorem State.withCommands_gfu : (s.withCommands cws).gfu = s.gfu := rfl
@[simp] theorem State.withCommands_params : (s.withCommands cws).params = s.params := rfl
@[simp] theorem State.withCommands_commands : (s.withCommands cws).commands = cws := rfl
@[simp] theorem State.withCommands_response : (s.withCommands cws).response = s.response := rfl

@[simp] theorem State.withBsp_self : s.withBsp s.bsp = s := rfl
@[simp] theorem State.withBsp_withBsp (c : Bsp) : (s.withBsp b).withBsp c = s.withBsp c := rfl
@[simp] theorem State.withResponse_withResponse (q : Response) :
    (s.withResponse r).withResponse q = s.withResponse q := rfl

@[simp] theorem State.reset_bsp : State.reset.bsp = Bsp.reset := rfl
@[simp] theorem State.reset_gfu : State.reset.gfu = Gfu.reset := rfl
@[simp] theorem State.reset_params : State.reset.params = Params.default := rfl
@[simp] theorem State.reset_commands : State.reset.commands = [] := rfl
@[simp] theorem State.reset_response : State.reset.response = none := rfl

@[simp] theorem Bsp.created_mem (cap : Nat) : (Bsp.created cap).mem = [] := rfl
@[simp] theorem Bsp.created_len (cap : Nat) : (Bsp.created cap).len = cap := rfl
@[simp] theorem Bsp.created_byteCur (cap : Nat) : (Bsp.created cap).byteCur = 0 := rfl
@[simp] theorem Bsp.created_bitCur (cap : Nat) : (Bsp.created cap).bitCur = 0 := rfl

@[simp] theorem Bsp.seek_mem (t : Nat) : (Bsp.seek t b).mem = b.mem := rfl
@[simp] theorem Bsp.seek_len (t : Nat) : (Bsp.seek t b).len = b.len := rfl
@[simp] theorem Bsp.seek_byteCur (t : Nat) : (Bsp.seek t b).byteCur = t / 8 := rfl
@[simp] theorem Bsp.seek_bitCur_val (t : Nat) : (Bsp.seek t b).bitCur.val = t % 8 := rfl
@[simp] theorem Bsp.seek_pos (t : Nat) : (Bsp.seek t b).pos = t := by
  simp only [Bsp.pos, Bsp.seek_byteCur, Bsp.seek_bitCur_val]; omega

@[simp] theorem Bsp.written_mem (v n : Nat) : (b.written v n).mem = b.mem.writeGroup b.pos v n := rfl
@[simp] theorem Bsp.written_len (v n : Nat) : (b.written v n).len = b.len := rfl
@[simp] theorem Bsp.written_byteCur (v n : Nat) : (b.written v n).byteCur = (b.pos + n) / 8 := rfl
@[simp] theorem Bsp.written_bitCur_val (v n : Nat) : (b.written v n).bitCur.val = (b.pos + n) % 8 := rfl
@[simp] theorem Bsp.written_pos (v n : Nat) : (b.written v n).pos = b.pos + n := Bsp.seek_pos _ _

@[simp] theorem Bsp.filled_len : b.filled.len = b.padded.len := rfl
@[simp] theorem Bsp.filled_byteCur : b.filled.byteCur = b.padded.len := rfl
@[simp] theorem Bsp.filled_bitCur : b.filled.bitCur = 0 := rfl
@[simp] theorem Bsp.filled_mem :
    b.filled.mem = b.padded.mem.fillPads b.padded.byteCur 0 (b.padded.len - b.padded.byteCur) := rfl

@[simp] theorem Bsp.padded_mem : b.padded.mem = b.mem := by unfold Bsp.padded; split <;> rfl
@[simp] theorem Bsp.padded_len : b.padded.len = b.len := by unfold Bsp.padded; split <;> rfl
@[simp] theorem Bsp.padded_bitCur : b.padded.bitCur = 0 := by unfold Bsp.padded; split <;> simp_all

/-- The aligned cursor is at byte `ceil8(P)`. -/
theorem Bsp.padded_byteCur : b.padded.byteCur = ceil8 b.pos := by
  have h := b.bitCur.isLt
  unfold Bsp.padded ceil8 Bsp.pos
  split
  · next h0 => rw [h0]; simp; omega
  · next h0 =>
    have : b.bitCur.val ≠ 0 := fun hv => h0 (Fin.ext hv)
    simp only; omega

/-- The written prefix has `ceil8(P)` bytes (R128). -/
theorem Bsp.prefixLength_eq : b.prefixLength = ceil8 b.pos := by
  have h := b.bitCur.isLt
  unfold Bsp.prefixLength ceil8 Bsp.pos
  split
  · next h0 => rw [h0]; simp; omega
  · next h0 =>
    have : b.bitCur.val ≠ 0 := fun hv => h0 (Fin.ext hv)
    omega

variable (p : Params) (need : Nat)

@[simp] theorem Bsp.grown_byteCur : (b.grown p need).byteCur = b.byteCur := by unfold Bsp.grown; split <;> rfl
@[simp] theorem Bsp.grown_bitCur : (b.grown p need).bitCur = b.bitCur := by unfold Bsp.grown; split <;> rfl
@[simp] theorem Bsp.grown_pos : (b.grown p need).pos = b.pos := by simp [Bsp.pos]
theorem Bsp.grown_of_le (h : need ≤ b.len) : b.grown p need = b := by
  unfold Bsp.grown; rw [if_neg (by omega)]
theorem Bsp.grown_of_gt (h : b.len < need) :
    b.grown p need = { b with mem := b.mem.below b.len, len := p.grow b.len need } := by
  unfold Bsp.grown; rw [if_pos (by omega)]

end Sys2Proof.Machine
end

