-- ==== Sys2Proof/Laws/Ops.lean ====
section
/-! SUPPORT. What each shared operation can do, said once: the growth policy, the growth step, an append, a command, a
word, a step. Later proofs cite these and do not unfold the operations. -/

namespace Sys2Proof.Machine

/-! ### Parameters -/

theorem Params.exceeds_eq_true_iff (p : Params) (n : Nat) :
    p.exceeds n = true ↔ ∃ m, p.bufMax = some m ∧ m < n := by
  unfold Params.exceeds
  cases p.bufMax <;> simp

theorem Params.exceeds_mono {p : Params} {n k : Nat} (h : k ≤ n) (hn : p.exceeds n = false) : p.exceeds k = false := by
  unfold Params.exceeds at *
  cases hb : p.bufMax with
  | none => rfl
  | some m =>
    rw [hb] at hn
    simp only [decide_eq_false_iff_not] at *
    omega

/-- The bound on `GROW` (R8, R116): `need <= GROW(len, need) <= BUF_MAX`. -/
theorem Params.grow_bounds (p : Params) (len need : Nat) (h : p.exceeds need = false) :
    need ≤ p.grow len need ∧ p.exceeds (p.grow len need) = false := by
  unfold Params.grow
  split
  · next e _ =>
    refine ⟨Nat.le_max_left _ _, ?_⟩
    unfold Params.exceeds Params.capped at *
    cases hb : p.bufMax with
    | none => rfl
    | some m =>
      rw [hb] at h
      simp only [decide_eq_false_iff_not] at *
      omega
  · exact ⟨Nat.le_refl _, h⟩

/-- Exact fit, the default (R116). -/
theorem Params.grow_exactFit (p : Params) (len need : Nat) (h : p.growTable = []) : p.grow len need = need := by
  unfold Params.grow
  rw [h]
  rfl

/-! ### The growth step -/

/-- The storage is at least as long as needed after the growth step. -/
theorem Bsp.need_le_grown_len (p : Params) (b : Bsp) (need : Nat) (h : p.exceeds need = false) :
    need ≤ (b.grown p need).len := by
  by_cases hn : need ≤ b.len
  · rw [Bsp.grown_of_le _ _ _ hn]; exact hn
  · rw [Bsp.grown_of_gt _ _ _ (by omega)]
    exact (Params.grow_bounds p b.len need h).1

/-- Growth never shortens the storage. -/
theorem Bsp.len_le_grown_len (p : Params) (b : Bsp) (need : Nat) (h : p.exceeds need = false) :
    b.len ≤ (b.grown p need).len := by
  by_cases hn : need ≤ b.len
  · rw [Bsp.grown_of_le _ _ _ hn]
  · have := Bsp.need_le_grown_len p b need h
    omega

/-- Existing bits keep their values in the growth step. -/
theorem Bsp.sbit_grown_old (p : Params) (b : Bsp) (need k : Nat) (hk : k < 8 * b.len) :
    (b.grown p need).mem.sbit k = b.mem.sbit k := by
  by_cases hn : need ≤ b.len
  · rw [Bsp.grown_of_le _ _ _ hn]
  · rw [Bsp.grown_of_gt _ _ _ (by omega)]
    simp [Memory.sbit_below, hk]

/-- New bytes are zero (R116). -/
theorem Bsp.sbit_grown_new (p : Params) (b : Bsp) (need k : Nat) (hn : b.len < need) (hk : 8 * b.len ≤ k) :
    (b.grown p need).mem.sbit k = false := by
  rw [Bsp.grown_of_gt _ _ _ hn]
  simp only [Memory.sbit_below]
  rw [if_neg (by omega)]

theorem Bsp.wf_grown (p : Params) (b : Bsp) (need : Nat) (h : b.mem.wf = true) : (b.grown p need).mem.wf = true := by
  unfold Bsp.grown
  split
  · exact Memory.wf_below _ _ h
  · exact h

theorem Bsp.within_grown (p : Params) (b : Bsp) (need : Nat) (hx : p.exceeds need = false) (h : b.mem.Within b.len) :
    (b.grown p need).mem.Within (b.grown p need).len := by
  by_cases hn : need ≤ b.len
  · rw [Bsp.grown_of_le _ _ _ hn]; exact h
  · have := (Params.grow_bounds p b.len need hx).1
    rw [Bsp.grown_of_gt _ _ _ (by omega)]
    exact Memory.within_below _ _ _ (by simp only; omega)

/-! ### Appends -/

/-- The stream an append of `length` bits of `value` leaves. -/
def Bsp.appended (p : Params) (value length : Nat) (b : Bsp) : Bsp := (b.grown p (b.need length)).written value length

@[simp] theorem Bsp.appended_pos (p : Params) (v n : Nat) (b : Bsp) : (b.appended p v n).pos = b.pos + n := by
  simp [Bsp.appended]
@[simp] theorem Bsp.appended_byteCur (p : Params) (v n : Nat) (b : Bsp) :
    (b.appended p v n).byteCur = (b.pos + n) / 8 := by simp [Bsp.appended]
@[simp] theorem Bsp.appended_bitCur_val (p : Params) (v n : Nat) (b : Bsp) :
    (b.appended p v n).bitCur.val = (b.pos + n) % 8 := by simp [Bsp.appended]
@[simp] theorem Bsp.appended_len (p : Params) (v n : Nat) (b : Bsp) :
    (b.appended p v n).len = (b.grown p (b.need n)).len := by simp [Bsp.appended]

/-- Every bit of the stream an append leaves. -/
theorem Bsp.sbit_appended (p : Params) (v n k : Nat) (b : Bsp) :
    (b.appended p v n).mem.sbit k =
      if b.pos ≤ k ∧ k < b.pos + n then bit v (n - 1 - (k - b.pos)) else (b.grown p (b.need n)).mem.sbit k := by
  simp [Bsp.appended, Memory.sbit_writeGroup]

/-- An append ends in CapacityExceeded or in the appended stream (R116 to R118). -/
theorem append_eq (v n : Nat) (s : State) :
    append v n s = if s.params.exceeds (s.bsp.need n) then .next (s.withResponse (.error .capacityExceeded))
      else .next ((s.withBsp (s.bsp.appended s.params v n)).withResponse .done) := rfl

/-! ### Commands -/

/-- What a command can do when it answers a next state: it emits a response and leaves some stream, and nothing else has
changed. -/
theorem exec_next {i : Instr} {s t : State} (h : exec i s = .next t) :
    ∃ b r, t = (s.withBsp b).withResponse r := by
  cases i with
  | bsCreate cap =>
    simp only [exec, execBsCreate, raise, finish, respond] at h
    split at h <;> injection h with h <;> subst h
    · exact ⟨s.bsp, _, rfl⟩
    · exact ⟨_, _, rfl⟩
  | bsAppend v n =>
    simp only [exec, execBsAppend, append_eq] at h
    split at h <;> injection h with h <;> subst h
    · exact ⟨s.bsp, _, rfl⟩
    · exact ⟨_, _, rfl⟩
  | bsAppendA v =>
    simp only [exec, execBsAppendA, append_eq] at h
    split at h <;> injection h with h <;> subst h
    · exact ⟨s.bsp, _, rfl⟩
    · exact ⟨_, _, rfl⟩
  | bsPad => injection h with h; exact ⟨_, _, h.symm⟩
  | bsFill => injection h with h; exact ⟨_, _, h.symm⟩
  | bsExtract =>
    simp only [exec, execBsExtract, respond] at h
    split at h
    · injection h with h; exact ⟨s.bsp, _, h.symm⟩
    · cases h
  | bsLen => injection h with h; exact ⟨s.bsp, _, h.symm⟩
  | bsDump => injection h with h; exact ⟨s.bsp, _, h.symm⟩
  | gfAdd a b => injection h with h; exact ⟨s.bsp, _, h.symm⟩
  | gfSub a b => injection h with h; exact ⟨s.bsp, _, h.symm⟩
  | gfMul a b => injection h with h; exact ⟨s.bsp, _, h.symm⟩
  | gfDiv a b =>
    simp only [exec, execGfDiv, raise, respond] at h
    split at h <;> injection h with h <;> exact ⟨s.bsp, _, h.symm⟩
  | gfPow x n =>
    simp only [exec, execGfPow, respond] at h
    split at h
    · cases h
    · injection h with h; exact ⟨s.bsp, _, h.symm⟩

/-- A command that only reads leaves everything but the response (`20_memory.md` R58). -/
theorem exec_readsOnly {i : Instr} {s t : State} (hr : readsOnly i = true) (h : exec i s = .next t) :
    ∃ r, t = s.withResponse r := by
  cases i <;> simp only [readsOnly, Bool.false_eq_true] at hr
  case bsExtract =>
    simp only [exec, execBsExtract, respond] at h
    split at h
    · injection h with h; exact ⟨_, h.symm⟩
    · cases h
  case gfDiv a b =>
    simp only [exec, execGfDiv, raise, respond] at h
    split at h <;> injection h with h <;> exact ⟨_, h.symm⟩
  case gfPow x n =>
    simp only [exec, execGfPow, respond] at h
    split at h
    · cases h
    · injection h with h; exact ⟨_, h.symm⟩
  all_goals (injection h with h; exact ⟨_, h.symm⟩)

/-- The streams a command can leave. -/
inductive Bsp.After (p : Params) (b : Bsp) : Bsp → Prop where
  /-- a read, an error, a GFU command -/
  | same : Bsp.After p b b
  /-- BS.CREATE -/
  | created (cap : Nat) (h : p.exceeds cap = false) : Bsp.After p b (Bsp.created cap)
  /-- BS.APPEND, BS.APPENDA -/
  | appended (v n : Nat) (h : p.exceeds (b.need n) = false) : Bsp.After p b (b.appended p v n)
  /-- BS.PAD -/
  | padded : Bsp.After p b b.padded
  /-- BS.FILL -/
  | filled : Bsp.After p b b.filled

theorem append_after {v n : Nat} {s t : State} (h : append v n s = .next t) : s.bsp.After s.params t.bsp := by
  rw [append_eq] at h
  split at h <;> injection h with h <;> subst h
  · exact .same
  · next hx => exact .appended v n (by simpa using hx)

/-- The stream a command leaves is one of the five, the bound tested before. -/
theorem exec_after {i : Instr} {s t : State} (h : exec i s = .next t) : s.bsp.After s.params t.bsp := by
  cases i with
  | bsCreate cap =>
    simp only [exec, execBsCreate, raise, finish, respond] at h
    split at h <;> injection h with h <;> subst h
    · exact .same
    · next hx => exact .created cap (by simpa using hx)
  | bsAppend v n => exact append_after h
  | bsAppendA v => exact append_after h
  | bsPad => injection h with h; subst h; exact .padded
  | bsFill => injection h with h; subst h; exact .filled
  | bsExtract =>
    simp only [exec, execBsExtract, respond] at h
    split at h
    · injection h with h; subst h; exact .same
    · cases h
  | bsLen => injection h with h; subst h; exact .same
  | bsDump => injection h with h; subst h; exact .same
  | gfAdd a b => injection h with h; subst h; exact .same
  | gfSub a b => injection h with h; subst h; exact .same
  | gfMul a b => injection h with h; subst h; exact .same
  | gfDiv a b =>
    simp only [exec, execGfDiv, raise, respond] at h
    split at h <;> injection h with h <;> subst h <;> exact .same
  | gfPow x n =>
    simp only [exec, execGfPow, respond] at h
    split at h
    · cases h
    · injection h with h; subst h; exact .same

/-! ### Words and steps -/

/-- What a step can do: wait, execute the command the oldest word decodes to, or raise IllegalCommand. -/
theorem step_cases (s : State) :
    (s.commands = [] ∧ step s = .next s) ∨
    (∃ cw rest i, s.commands = cw :: rest ∧ decode cw = .ok i ∧ step s = exec i (s.withCommands rest)) ∨
    (∃ cw rest e, s.commands = cw :: rest ∧ decode cw = .error e ∧
      step s = .next ((s.withCommands rest).withResponse (.error .illegalCommand))) := by
  cases hc : s.commands with
  | nil => exact .inl ⟨rfl, by simp [step, hc, waitForCommand]⟩
  | cons cw rest =>
    cases hd : decode cw with
    | ok i => exact .inr (.inl ⟨cw, rest, i, rfl, hd, by simp [step, hc, execWord, hd]⟩)
    | error e =>
      exact .inr (.inr ⟨cw, rest, e, rfl, hd, by simp [step, hc, execWord, hd, raise, respond]⟩)

/-- The stream a step leaves, and what it never changes. -/
theorem step_after {s t : State} (h : step s = .next t) :
    s.bsp.After s.params t.bsp ∧ t.gfu = s.gfu ∧ t.params = s.params := by
  rcases step_cases s with ⟨-, hs⟩ | ⟨cw, rest, i, -, -, hs⟩ | ⟨cw, rest, e, -, -, hs⟩
  · rw [hs] at h; injection h with h; subst h; exact ⟨.same, rfl, rfl⟩
  · rw [hs] at h
    have ha := exec_after h
    obtain ⟨b, r, rfl⟩ := exec_next h
    exact ⟨ha, rfl, rfl⟩
  · rw [hs] at h; injection h with h; subst h; exact ⟨.same, rfl, rfl⟩

end Sys2Proof.Machine
end

