-- ==== Sys2Proof/Laws/PerInstr.lean ====
section
/-! SUPPORT. Statements made per instruction, one lemma per constructor of `Instr`. The family `HeaderFields`: the header of
a command's word has the command's opcode, its `AUTO` bit, and reserved bits 0 (`30_encoding.md` R81, R82), whatever the
operands. -/

namespace Sys2Proof.Laws.HeaderFields

/-- The opcode of each command (R84). -/
def opcode : Instr → BitVec 4
  | .bsCreate _ => 0x1#4
  | .bsAppend _ _ => 0x2#4
  | .bsAppendA _ => 0x2#4
  | .bsPad => 0x3#4
  | .bsFill => 0x4#4
  | .bsExtract => 0x5#4
  | .bsLen => 0x6#4
  | .bsDump => 0x7#4
  | .gfAdd _ _ => 0x8#4
  | .gfSub _ _ => 0x9#4
  | .gfMul _ _ => 0xA#4
  | .gfDiv _ _ => 0xB#4
  | .gfPow _ _ => 0xC#4

/-- `AUTO` is 1 for BS.APPENDA only (R82). -/
def automatic : Instr → BitVec 1
  | .bsAppendA _ => 1#1
  | .bsCreate _ | .bsAppend _ _ | .bsPad | .bsFill | .bsExtract | .bsLen | .bsDump => 0#1
  | .gfAdd _ _ | .gfSub _ _ | .gfMul _ _ | .gfDiv _ _ | .gfPow _ _ => 0#1

/-- The header fields of the command's word. -/
def Statement (i : Instr) : Prop :=
  Field.op (encode i) = opcode i ∧ Field.auto (encode i) = automatic i ∧ Field.rsv (encode i) = 0#3

theorem of_assemble {i : Instr} {op : BitVec 4} {auto : BitVec 1} {length : BitVec 8} {payload : BitVec 64}
    (he : encode i = assemble op auto length payload) (ho : op = opcode i) (ha : auto = automatic i) : Statement i := by
  have h := fields_assemble op auto length payload
  unfold Statement
  rw [he, ← ho, ← ha]
  exact ⟨h.1, h.2.1, h.2.2.1⟩

theorem bsCreate (cap : Nat) : Statement (.bsCreate cap) := of_assemble rfl rfl rfl
theorem bsAppend (value length : Nat) : Statement (.bsAppend value length) := of_assemble rfl rfl rfl
theorem bsAppendA (value : Nat) : Statement (.bsAppendA value) := of_assemble rfl rfl rfl
theorem bsPad : Statement .bsPad := of_assemble rfl rfl rfl
theorem bsFill : Statement .bsFill := of_assemble rfl rfl rfl
theorem bsExtract : Statement .bsExtract := of_assemble rfl rfl rfl
theorem bsLen : Statement .bsLen := of_assemble rfl rfl rfl
theorem bsDump : Statement .bsDump := of_assemble rfl rfl rfl
theorem gfAdd (a b : Byte) : Statement (.gfAdd a b) := of_assemble rfl rfl rfl
theorem gfSub (a b : Byte) : Statement (.gfSub a b) := of_assemble rfl rfl rfl
theorem gfMul (a b : Byte) : Statement (.gfMul a b) := of_assemble rfl rfl rfl
theorem gfDiv (a b : Byte) : Statement (.gfDiv a b) := of_assemble rfl rfl rfl
theorem gfPow (x : Byte) (n : Nat) : Statement (.gfPow x n) := of_assemble rfl rfl rfl

end Sys2Proof.Laws.HeaderFields
end

