-- ==== Sys2Proof/Tests/Slice0.lean ====
section
/-! SUPPORT. Tests of the model against the spec's own examples and vectors (`95_test_vectors.md`,
`96_test_vectors_derived.md`) and hand calculation from its rules. Every expected value is the spec's. -/

namespace Sys2Proof.Tests

open Sys2Proof Sys2Proof.Machine Sys2Proof.HostSeq

/-! ### WellFormed: an ill-formed command for each check (R83, R90) -/

theorem test_cap_too_wide : (Instr.bsCreate (2 ^ 32)).wellFormed = false := by decide
theorem test_value_too_wide : (Instr.bsAppend (2 ^ 64) 8).wellFormed = false := by decide
theorem test_length_too_wide : (Instr.bsAppend 1 256).wellFormed = false := by decide
theorem test_auto_value_too_wide : (Instr.bsAppendA (2 ^ 64)).wellFormed = false := by decide
theorem test_exponent_too_wide : (Instr.gfPow 2#8 (2 ^ 32)).wellFormed = false := by decide
theorem test_widest_is_well_formed : (Instr.bsAppend (2 ^ 64 - 1) 255).wellFormed = true := by decide

/-! ### Decoding: words written out from `30_encoding.md` R81, R82, R84, R91 and the vectors -/

/-- ER-A, "Conversely": BS.CREATE 2^32-1. -/
theorem test_decode_create : decodeTableWord 80 0x100000000000FFFFFFFF = some (.bsCreate 4294967295) := by decide
/-- ER-A, "Conversely": BS.APPEND 1, 255. -/
theorem test_decode_append : decodeTableWord 80 0x20FF0000000000000001 = some (.bsAppend 1 255) := by decide
/-- BS-B11. -/
theorem test_decode_append_wide :
    decodeTableWord 80 0x20408000000000000001 = some (.bsAppend 0x8000000000000001 64) := by decide
/-- BS-C4. -/
theorem test_decode_appenda : decodeTableWord 80 0x28000000000000000025 = some (.bsAppendA 0x25) := by decide
/-- Format N, `OP` 0x3 to 0x7. -/
theorem test_decode_format_n :
    [0x30000000000000000000, 0x40000000000000000000, 0x50000000000000000000, 0x60000000000000000000,
      0x70000000000000000000].map (decodeTableWord 80) =
    [some .bsPad, some .bsFill, some .bsExtract, some .bsLen, some .bsDump] := by decide
/-- GF-A1: the four words of the pair 0x53, 0xCA. -/
theorem test_decode_format_g :
    [0x8000000000000000CA53, 0x9000000000000000CA53, 0xA000000000000000CA53, 0xB000000000000000CA53].map
      (decodeTableWord 80) =
    [some (.gfAdd 0x53#8 0xCA#8), some (.gfSub 0x53#8 0xCA#8), some (.gfMul 0x53#8 0xCA#8),
      some (.gfDiv 0x53#8 0xCA#8)] := by decide
/-- GF-C12. -/
theorem test_decode_pow : decodeTableWord 80 0xC0000000000001E24001 = some (.gfPow 0x01#8 123456) := by decide
/-- ER-A1 to ER-A17: no row matches. -/
theorem test_illegal_words :
    [0x00000000000000000000, 0xFFFFFFFFFFFFFFFFFFFF, 0xD0000000000000000000, 0xE0000000000000000000,
      0x31000000000000000000, 0x24030000000000000005, 0x38000000000000000000, 0x28030000000000000005,
      0x30010000000000000000, 0x30000000000000000001, 0x50000000000000000010, 0x10000000000100000000,
      0x10050000000000000001, 0xA0000000000000010203, 0xB8000000000000000201, 0xC0000000010000000302,
      0x80FF0000000000000000].all (fun w => (decodeTableWord 80 w).isNone) = true := by decide
/-- The reasons of ER-A5, ER-A7, ER-A8, ER-A9, ER-A14. -/
theorem test_illegal_reasons :
    [0x31000000000000000000, 0x38000000000000000000, 0x28030000000000000005, 0x30010000000000000000,
      0xA0000000000000010203].map (fun w => illegalReason (tableWord 80 w)) =
    [.reservedHeaderBits, .autoNotAllowed, .lengthNotAllowed, .lengthNotAllowed, .reservedPayloadBits] := by decide
/-- R91's five examples. -/
theorem test_encode_examples :
    [Instr.bsAppend 5 3, .bsAppendA 0x25, .bsCreate 16, .gfMul 0x53#8 0xCA#8, .gfPow 2#8 255].map encode =
    [0x20030000000000000005#80, 0x28000000000000000025#80, 0x10000000000000000010#80,
      0xA000000000000000CA53#80, 0xC000000000000000FF02#80] := by decide

/-! ### One step on small states -/

/-- A state whose stream has these listed bytes, this length and this cursor. -/
def stateWith (mem : Memory) (len byteCur : Nat) (bitCur : Fin 8) : State :=
  { State.reset with bsp := ⟨mem, len, byteCur, bitCur⟩ }

/-- What a command leaves: the stream, and the response as it is emitted. -/
def seen : Host.Outcome State Fault Refusal → Option (Bsp × Option (ResponseHeader × List Byte))
  | .next t => some (t.bsp, t.response.map Response.emitted)
  | _ => none

/-- The word run as the next step of a state. -/
def runWord (s : State) (w : Nat) : Option (Bsp × Option (ResponseHeader × List Byte)) :=
  seen (step (s.withFetchWord 80 w))

/-- BS-A4: the old stream is gone; storage zeroed. -/
theorem test_create_clears :
    runWord (stateWith [(0, 0xFF#8), (1, 0xFF#8)] 2 2 0) 0x10000000000000000002 =
      some (⟨[], 2, 0, 0⟩, some (0x0000000000#40, [])) := by decide +kernel
/-- ER-C7: with `BUF_MAX = 16` a refused BS.CREATE keeps the old stream. -/
theorem test_create_beyond_the_bound :
    runWord { stateWith [(0, 0xA0#8)] 2 0 3 with params := ⟨some 16, []⟩ } 0x10000000000000000011 =
      some (⟨[(0, 0xA0#8)], 2, 0, 3⟩, some (0xE000000000#40, [])) := by decide +kernel
/-- BS-B7: a group spans the byte boundary. -/
theorem test_append_spans_bytes :
    runWord (stateWith [(0, 0xF8#8)] 2 0 5) 0x2006000000000000002D =
      some (⟨[(0, 0xFD#8), (1, 0xA0#8)], 2, 1, 3⟩, some (0x0000000000#40, [])) := by decide +kernel
/-- BS-B13: the longest single append; `LEN` 1 to 32 under exact fit, `MEM[31] = 02`. -/
theorem test_append_grows :
    runWord State.reset 0x20FF0000000000000001 =
      some (⟨[(31, 0x02#8)], 32, 31, 7⟩, some (0x0000000000#40, [])) := by decide +kernel
/-- BS-C7: 9 bits of 0x100 after 12 bits. -/
theorem test_appenda_nine_bits :
    runWord (stateWith [(0, 0x6F#8), (1, 0xF0#8)] 4 1 4) 0x28000000000000000100 =
      some (⟨[(0, 0x6F#8), (1, 0xF8#8)], 4, 2, 5⟩, some (0x0000000000#40, [])) := by decide +kernel
/-- BS-C1: an automatic append of 0 moves the cursor one bit. -/
theorem test_appenda_zero :
    runWord State.reset 0x28000000000000000000 = some (⟨[], 1, 0, 1⟩, some (0x0000000000#40, [])) := by decide +kernel
/-- BS-D4: a partial last byte; the cursor reaches `LEN`, no growth. -/
theorem test_pad_partial_last_byte :
    runWord (stateWith [(0, 0xA0#8)] 1 0 3) 0x30000000000000000000 =
      some (⟨[(0, 0xA0#8)], 1, 1, 0⟩, some (0x0000000000#40, [])) := by decide +kernel
/-- BS-E1: the even count ends on 0x11. -/
theorem test_fill_after_one_bit :
    runWord (stateWith [(0, 0x80#8)] 5 0 1) 0x40000000000000000000 =
      some (⟨[(0, 0x80#8), (1, 0xEC#8), (2, 0x11#8), (3, 0xEC#8), (4, 0x11#8)], 5, 5, 0⟩,
        some (0x0000000000#40, [])) := by decide +kernel
/-- BS-E6: a partial last byte is only aligned. -/
theorem test_fill_nothing_left :
    runWord (stateWith [(0, 0x20#8)] 1 0 3) 0x40000000000000000000 =
      some (⟨[(0, 0x20#8)], 1, 1, 0⟩, some (0x0000000000#40, [])) := by decide +kernel
/-- BS-F6: 2 of 4 bytes, the partial byte included. -/
theorem test_extract_partial_byte :
    runWord (stateWith [(0, 0xAB#8), (1, 0xC0#8)] 4 1 4) 0x50000000000000000000 =
      some (⟨[(0, 0xAB#8), (1, 0xC0#8)], 4, 1, 4⟩, some (0x0000000002#40, [0xAB#8, 0xC0#8])) := by decide +kernel
/-- BS-F9: aligned; `MEM[2]` is not included. -/
theorem test_extract_aligned :
    runWord (stateWith [(0, 0xAB#8), (1, 0xCD#8)] 4 2 0) 0x50000000000000000000 =
      some (⟨[(0, 0xAB#8), (1, 0xCD#8)], 4, 2, 0⟩, some (0x0000000002#40, [0xAB#8, 0xCD#8])) := by decide +kernel
/-- BS-F7: the capacity, not the written length. -/
theorem test_len_is_capacity :
    runWord (stateWith [(0, 0xAB#8), (1, 0xC0#8)] 4 1 4) 0x60000000000000000000 =
      some (⟨[(0, 0xAB#8), (1, 0xC0#8)], 4, 1, 4⟩, some (0x0000000004#40, [])) := by decide +kernel
/-- BS-F8: all 4 bytes, `BITC = 4`. -/
theorem test_dump_every_byte :
    runWord (stateWith [(0, 0xAB#8), (1, 0xC0#8)] 4 1 4) 0x70000000000000000000 =
      some (⟨[(0, 0xAB#8), (1, 0xC0#8)], 4, 1, 4⟩,
        some (0x0400000004#40, [0xAB#8, 0xC0#8, 0x00#8, 0x00#8])) := by decide +kernel
/-- GF-A1: GF.ADD and GF.SUB. -/
theorem test_add_sub :
    [0x8000000000000000CA53, 0x9000000000000000CA53].map (fun w => runWord State.reset w) =
      List.replicate 2 (some (Bsp.reset, some (0x0000000099#40, []))) := by decide +kernel
/-- GF-A1, GF-A10: GF.MUL with and without the wrap of the exponent. -/
theorem test_mul :
    [0xA000000000000000CA53, 0xA000000000000000028E].map (fun w => runWord State.reset w) =
      [some (Bsp.reset, some (0x000000008F#40, [])), some (Bsp.reset, some (0x0000000001#40, []))] := by decide +kernel
/-- GF-A8: a zero operand. -/
theorem test_mul_by_zero :
    runWord State.reset 0xA000000000000000AB00 = some (Bsp.reset, some (0x0000000000#40, [])) := by decide +kernel
/-- GF-B9, GF-A4: GF.DIV with and without the borrow. -/
theorem test_div :
    [0xB0000000000000003412, 0xB0000000000000008002].map (fun w => runWord State.reset w) =
      [some (Bsp.reset, some (0x00000000C7#40, [])), some (Bsp.reset, some (0x0000000036#40, []))] := by decide +kernel
/-- ER-B2: the zero-divisor test comes before the zero-dividend test. -/
theorem test_div_by_zero :
    runWord State.reset 0xB0000000000000000000 = some (Bsp.reset, some (0x1000000000#40, [])) := by decide +kernel
/-- GF-C16, GF-C17: GF.POW beyond 255. -/
theorem test_pow :
    [0xC000000000000003E805, 0xC000000000FFFFFFFF02].map (fun w => runWord State.reset w) =
      [some (Bsp.reset, some (0x00000000B4#40, [])), some (Bsp.reset, some (0x0000000001#40, []))] := by decide +kernel
/-- ER-D: the word is judged before the operands. -/
theorem test_illegal_before_division_by_zero :
    runWord State.reset 0xB8000000000000000005 = some (Bsp.reset, some (0xF000000000#40, [])) := by decide +kernel
/-- BS-B12 under doubling (`96_test_vectors_derived.md`, below BS-B): `GROW(8, 15) = 16`. -/
theorem test_append_other_growth :
    runWord { stateWith [(0, 0x80#8), (7, 0x01#8)] 8 8 0 with params := ⟨none, [⟨8, 15, 16⟩]⟩ } 0x20360020000000000001 =
      some (⟨[(0, 0x80#8), (7, 0x01#8), (8, 0x80#8), (14, 0x04#8)], 16, 14, 6⟩,
        some (0x0000000000#40, [])) := by decide +kernel

/-! ### Tables (GF-D) -/

theorem test_exp_entries :
    [0, 8, 25, 133, 254, 255, 256, 508, 511].map (fun i => Gfu.reset.exp.entries[i]?) =
      [some 0x01#8, some 0x1D#8, some 0x03#8, some 0x6D#8, some 0x8E#8, some 0x01#8, some 0x02#8, some 0x47#8,
        some 0x02#8] := by decide +kernel
theorem test_log_entries :
    [Gfu.reset.logAt 0x53#8 (by decide), Gfu.reset.logAt 0xCA#8 (by decide), Gfu.reset.logAt 0xFF#8 (by decide),
      Gfu.reset.logAt 0x01#8 (by decide)] = [206, 73, 175, 0] := by decide +kernel

/-! ### Host sequences (`95_test_vectors.md` Part 3) -/

/-- P2 (R203): the commands of "AC-42". -/
theorem test_encode_alphanumeric :
    encAlnum (fun _ _ => capacityV1M) "AC-42".toList 1 .M =
      ⟨[.bsCreate 16, .bsAppend 2 4, .bsAppend 5 9, .bsAppend 0x1CE 11, .bsAppend 0x739 11, .bsAppend 2 6,
        .bsAppend 0 4, .bsPad, .bsFill], none⟩ := by decide
/-- HS-C: the pair `A,!` is never appended. -/
theorem test_invalid_character :
    encAlnum (fun _ _ => capacityV1M) "A!".toList 1 .M =
      ⟨[.bsCreate 16, .bsAppend 2 4, .bsAppend 2 9], some .invalidCharacter⟩ := by decide
/-- HS-A. -/
theorem test_width_of_count :
    [cciWidth 26 .alphanumeric, cciWidth 27 .alphanumeric, cciWidth 41 .kanji, cciWidth 40 .byte].map
      (fun r => match r with | .ok n => (n, none) | .error e => (0, some e)) =
    [(11, none), (13, none), (0, some .unsupportedVersion), (0, some .unsupportedMode)] := by decide
/-- HS-D: after `BS.CREATE 2`, `BS.APPEND 5, 3`. -/
theorem test_debug_string :
    debugString ⟨.ok, 3, 2, [0xA0#8, 0x00#8]⟩ true = "10100000 00000000 (3)".toList := by decide
/-- R90, R92: lines of text. -/
theorem test_assembler :
    ["BS.APPEND 0b101, 3 ; first group", "GF.MUL 0x53, 0xCA -> 0x8F", "BS.CREATE", "BS.APPEND 7", "GF.ADD 256, 0"].map
      (fun t => Assembler.parseLine t.toList) =
    [some (.command (.bsAppend 5 3)), some (.command (.gfMul 0x53#8 0xCA#8)), some (.pseudo .createDefault),
      some (.pseudo (.appendAuto 7)), none] := by decide +kernel

/-! ### Witnesses: for each statement of `Certificates/Slice0/Obligations.lean` with hypotheses, a state and operands that
meet all of them, clause by clause -/

/-- A stream of 2 bytes with 3 bits written, 101. -/
def partly : State := stateWith [(0, 0xA0#8)] 2 0 3

/-- The same under `BUF_MAX = 2`. -/
def bounded : State := { partly with params := ⟨some 2, []⟩ }

/-- The same under `BUF_MAX` infinite and a growth policy that answers 8 where 3 bytes are needed. -/
def doubling : State := { partly with params := ⟨none, [⟨2, 3, 8⟩]⟩ }

/-- `partly` with one command word presented. -/
def presented (w : CommandWord) : State := partly.withCommands [w]

/-- The status of the response a step leaves. -/
def statusAfter : Host.Outcome State Fault Refusal → Option Status
  | .next t => t.response.map (fun r => r.status)
  | _ => none

theorem partly_inv : partly.Inv := by
  refine ⟨⟨by decide, ?_, ⟨by decide, by decide⟩, ?_, by decide⟩, rfl⟩
  · intro c hc
    have h : c = (0, 0xA0#8) := by simpa [partly, stateWith] using hc
    subst h
    decide
  · intro k h1 h2
    have h : ∀ k, k < 16 → 3 ≤ k → partly.bsp.mem.sbit k = false := by decide
    exact h k h2 h1

/-- DecodeOfEncodeIsTheInstruction, CommandWordLayout: each command with its widest operands. -/
theorem witness_well_formed :
    [Instr.bsCreate (2 ^ 32 - 1), .bsAppend (2 ^ 64 - 1) 255, .bsAppendA (2 ^ 64 - 1), .bsPad, .bsFill, .bsExtract, .bsLen,
      .bsDump, .gfAdd 0xFF#8 0xFF#8, .gfSub 0xFF#8 0xFF#8, .gfMul 0xFF#8 0xFF#8, .gfDiv 0xFF#8 0xFF#8,
      .gfPow 0xFF#8 (2 ^ 32 - 1)].all Instr.wellFormed = true := by decide
/-- AtMostOneRowSelectsAWord: a word and the row it selects. -/
theorem witness_row : (opRows[(⟨1, by decide⟩ : Fin opRows.length)]).selects 0x20030000000000000005#80 = true := by decide
/-- IllegalWordsRaiseIllegalCommand: a state with an illegal word presented, one for each case of R89. -/
theorem witness_illegal :
    WordIllegal 0xD0000000000000000000#80 ∧ WordIllegal 0x31000000000000000000#80 ∧ WordIllegal 0x38000000000000000000#80 ∧
    WordIllegal 0x28030000000000000005#80 ∧ WordIllegal 0x30010000000000000000#80 ∧
    WordIllegal 0x30000000000000000001#80 ∧ WordIllegal 0x10000000000100000000#80 ∧
    WordIllegal 0xA0000000000000010203#80 ∧ WordIllegal 0xC0000000010000000302#80 ∧
    (presented 0xD0000000000000000000#80).commands = [0xD0000000000000000000#80] := by
  refine ⟨?_, ?_, ?_, ?_, ?_, ?_, ?_, ?_, ?_, rfl⟩ <;> unfold WordIllegal <;> decide
/-- StepRunsTheDecodedInstruction, StepTakesOneWordAndAnswersOnce: a decoded word and its next state. -/
theorem witness_step :
    (presented 0x20030000000000000005#80).commands = [0x20030000000000000005#80] ∧
    (decode 0x20030000000000000005#80).toOption = some (.bsAppend 5 3) ∧
    ∃ t, step (presented 0x20030000000000000005#80) = .next t := ⟨rfl, by decide, _, rfl⟩
/-- StepWaitsWithoutACommand. -/
theorem witness_no_command : partly.commands = [] := rfl
/-- ErrorResponsesChangeNothing, StatusCodesAndWhoRaisesThem: the errors of the block, each by a step. -/
theorem witness_errors :
    [(presented 0xB0000000000000000005#80), (presented 0x00000000000000000000#80),
      bounded.withCommands [0x10000000000000000003#80], bounded.withCommands [0x200E0000000000000001#80],
      bounded.withCommands [0x28000000000000002000#80]].map (fun s => statusAfter (step s)) =
    [some .divisionByZero, some .illegalCommand, some .capacityExceeded, some .capacityExceeded,
      some .capacityExceeded] := by decide +kernel
/-- StatusCodesAndWhoRaisesThem: the ends of the unassigned codes. -/
theorem witness_unassigned : 0x6 ≤ (0x6#4).toNat ∧ (0xD#4).toNat ≤ 0xD := by decide
/-- DivisionByZeroExactlyForAZeroDivisor. -/
theorem witness_division_by_zero :
    statusAfter (exec (.gfDiv 0x05#8 0x00#8) partly) = some .divisionByZero := by decide +kernel
/-- CapacityExceededExactlyBeyondTheBound, CreateMakesAZeroFilledStream, AppendGrowsTheStorage: both sides of the bound, and
no bound. -/
theorem witness_bounds :
    bounded.params.bufMax = some 2 ∧ bounded.params.exceeds 2 = false ∧ bounded.params.exceeds 3 = true ∧
    doubling.params.bufMax = none ∧ statusAfter (exec (.bsCreate 3) doubling) = some .ok := by decide +kernel
/-- AppendWritesTheGroupAtTheCursor, AppendGrowsTheStorage, AutomaticAppendUsesTheMinimalWidth: appends that end on the
last bit of the storage and one bit beyond it, under exact fit and under another policy. -/
theorem witness_appends :
    partly.params.exceeds ((partly.bsp.pos + 13 + 7) / 8) = false ∧ (partly.bsp.pos + 13 + 7) / 8 = partly.bsp.len ∧
    partly.params.exceeds ((partly.bsp.pos + 14 + 7) / 8) = false ∧ partly.bsp.len < (partly.bsp.pos + 14 + 7) / 8 ∧
    partly.params.growTable = [] ∧ doubling.params.exceeds ((doubling.bsp.pos + 14 + 7) / 8) = false ∧
    doubling.params.grow 2 3 = 8 ∧ partly.params.exceeds ((partly.bsp.pos + bitlen (2 ^ 64 - 1) + 7) / 8) = false := by
  decide +kernel
/-- AppendGrowsTheStorage: a bit before the cursor, a bit past the group, and a bit of a new byte past the group. -/
theorem witness_bits_outside :
    0 < partly.bsp.pos ∧ partly.bsp.pos + 3 ≤ 6 ∧ 6 < 8 * partly.bsp.len ∧ 8 * partly.bsp.len ≤ 18 ∧ 18 < 8 * 3 ∧
    partly.bsp.pos + 14 ≤ 18 := by decide
/-- AppendOfLengthZeroChangesNothing, CursorInvariantsAreKept, ExtractReturnsTheWrittenPrefix: a state that meets the cursor
invariants and the bound, in a byte and at the end of the storage. -/
theorem witness_cursor :
    partly.bsp.CursorOk ∧ partly.params.exceeds partly.bsp.len = false ∧ (stateWith [] 2 2 0).bsp.CursorOk :=
  ⟨⟨by decide, by decide⟩, by decide, by decide, by decide⟩
/-- PadAlignsTheCursor, PadAndFillAreIdempotent: a cursor inside a byte and one at a boundary; both commands complete. -/
theorem witness_pad_fill :
    partly.bsp.bitCur ≠ 0 ∧ State.reset.bsp.bitCur = 0 ∧ statusAfter (exec .bsPad partly) = some .ok ∧
    statusAfter (exec .bsFill partly) = some .ok := by decide +kernel
/-- FillPadsToTheEndOfTheStorage: the first byte filled, the last, and the byte before them. -/
theorem witness_fill_bytes : (partly.bsp.pos + 7) / 8 + 0 < partly.bsp.len ∧ 0 < (partly.bsp.pos + 7) / 8 := by decide
/-- ExtractPastTheStorageFaults: a state on each side. -/
theorem witness_past_storage :
    (stateWith [] 1 1 1).bsp.len < ((stateWith [] 1 1 1).bsp.pos + 7) / 8 ∧
    ¬ partly.bsp.len < (partly.bsp.pos + 7) / 8 := by decide
/-- ExtractReturnsTheWrittenPrefix, DumpReturnsEveryByte: the first index and the last. -/
theorem witness_indices : 0 < (partly.bsp.pos + 7) / 8 ∧ 1 < partly.bsp.len := by decide
/-- LenReturnsTheCapacity, CreateMakesAZeroFilledStream, CreateForgetsTheOldStream, AppendsConcatenate: BS.CREATE 2 answers
OK from two states of the same parameters, appends that fill it exactly run, appends beyond it run. -/
theorem witness_create_and_appends :
    ∃ t t', exec (.bsCreate 2) partly = .next t ∧ exec (.bsCreate 2) State.reset = .next t' ∧
      partly.params = State.reset.params ∧ t.response = some Response.done ∧ (runAppends [(5, 3), (1, 13)] t).isSome ∧
      ([(5, 3), (1, 13)].map (fun g : Nat × Nat => g.2)).sum ≤ 8 * 2 ∧ (runAppends [(5, 3), (1, 14)] t).isSome :=
  ⟨_, _, rfl, rfl, rfl, rfl, by decide +kernel, by decide, by decide +kernel⟩
/-- AppendsConcatenate: BS.CREATE answers OK where `BUF_MAX` is infinite. -/
theorem witness_unbounded :
    doubling.params.bufMax = none ∧ ∃ t, exec (.bsCreate 0) doubling = .next t ∧ t.response = some Response.done :=
  ⟨rfl, _, rfl, rfl⟩
/-- LenReturnsTheCapacity, WhichCommandsWriteWhichState: commands that change `LEN`, each with an OK response. -/
theorem witness_len_changes :
    [Instr.bsCreate 5, .bsAppend 1 14, .bsAppendA 0x2000].map (fun i =>
      match exec i partly with
      | .next t => some (t.bsp.len, t.response == some Response.done)
      | _ => none) =
    [some (5, true), some (3, true), some (3, true)] := by decide +kernel
/-- ReadsChangeNoState, WhichCommandsWriteWhichState, TheUnitsAreIndependent, FieldResultsAreBytes, NoCommandWritesTables,
ResponseHeaderAndCount: the commands that only read complete. -/
theorem witness_reads :
    [Instr.bsExtract, .bsLen, .bsDump, .gfAdd 1#8 2#8, .gfSub 1#8 2#8, .gfMul 1#8 2#8, .gfDiv 1#8 2#8, .gfPow 2#8 8].map
      (fun i => (readsOnly i, fieldCommand i, statusAfter (exec i partly))) =
    [(true, false, some .ok), (true, false, some .ok), (true, false, some .ok), (true, true, some .ok),
      (true, true, some .ok), (true, true, some .ok), (true, true, some .ok), (true, true, some .ok)] := by decide +kernel
/-- StreamIsZeroAheadOfTheCursor, EveryStepKeepsTheInvariant, StepsFromTheInvariantComplete: a state that meets the
invariant with a command presented, which is not GF.POW with base 0, and its step. -/
theorem witness_invariant :
    (presented 0x40000000000000000000#80).Inv ∧ (presented 0x40000000000000000000#80).NextDefined ∧
    ∃ t, step (presented 0x40000000000000000000#80) = .next t := by
  refine ⟨⟨partly_inv.bsp, partly_inv.gfu⟩, ?_, _, rfl⟩
  intro cw rest n hc hd
  have h : cw = 0x40000000000000000000#80 := by
    have e := congrArg List.head? hc
    injection e with e
    exact e.symm
  subst h
  have hf : (decode 0x40000000000000000000#80).toOption = some .bsFill := by decide
  rw [hd] at hf
  cases hf
/-- EmittedValuesFitTheHeader: the invariant, the bound of the hardware form, and a step that responds. -/
theorem witness_bounded_response :
    (presented 0x60000000000000000000#80).Inv ∧
    (presented 0x60000000000000000000#80).params.bufMax = some (2 ^ 32 - 1) ∧
    ∃ t, step (presented 0x60000000000000000000#80) = .next t ∧ t.response = some (.value 2) :=
  ⟨⟨partly_inv.bsp, partly_inv.gfu⟩, rfl, _, rfl, rfl⟩
/-- MulReadsTheTables, DivReadsTheTables, PowReadsTheTables, MulIsPolynomialMultiplication: table entries read for 0x53 and
0xCA. -/
theorem witness_table_reads :
    Gfu.reset.log.entries[(0x53#8).toNat - 1]? = some 206 ∧ Gfu.reset.log.entries[(0xCA#8).toNat - 1]? = some 73 ∧
    Gfu.reset.exp.entries[(206 + 73) % 255]? = some 0x8F#8 ∧
    Gfu.reset.exp.entries[(((206 : Int) - 73 + 255) % 255).toNat]? = some 0x6D#8 ∧
    Gfu.reset.exp.entries[(206 * 2) % 255]? = some 0xD5#8 ∧ Gfu.reset.exp.entries[206 + 73]? = some 0x8F#8 := by
  decide +kernel
/-- The statements with the tables built as their hypothesis: the tables of `partly`; operands other than 0; a period that
is not complete. -/
theorem witness_built : partly.gfu.Built ∧ (0x53#8 : Byte) ≠ 0#8 ∧ (1 : Nat) ≤ 254 ∧ 254 < 255 := ⟨rfl, by decide⟩
/-- FieldResponsesDependOnOperandsOnly: a command of the field unit. -/
theorem witness_field_command : fieldCommand (.gfPow 2#8 8) = true := rfl
/-- EveryGrowthPolicyIsSomeTable: the policy of doubling at two growths, within `BUF_MAX = 64`. -/
theorem witness_policy :
    ∀ q ∈ [(8, 9), (16, 17)], q.2 ≤ 2 * q.1 ∧ ∀ m, (some 64 : Option Nat) = some m → 2 * q.1 ≤ m := by
  intro q hq
  have h : q = (8, 9) ∨ q = (16, 17) := by simpa using hq
  refine ⟨by rcases h with rfl | rfl <;> decide, fun m hm => ?_⟩
  cases hm
  rcases h with rfl | rfl <;> decide
/-- CharacterCountWidth: each clause at the ends of its range (the widths and errors of R196). -/
theorem witness_versions :
    [(0, Mode.alphanumeric), (41, .byte), (1, .byte), (40, .kanji), (1, .alphanumeric), (9, .alphanumeric),
      (10, .alphanumeric), (26, .alphanumeric), (27, .alphanumeric), (40, .alphanumeric)].map
      (fun q => match cciWidth q.1 q.2 with | .ok n => (n, none) | .error e => (0, some e)) =
    [(0, some .unsupportedVersion), (0, some .unsupportedVersion), (0, some .unsupportedMode),
      (0, some .unsupportedMode), (9, none), (9, none), (11, none), (11, none), (13, none), (13, none)] := by decide
/-- AlphanumericEncoderFailures, AlphanumericEncoderBits: texts with and without a character outside the alphabet; the
other version and level. -/
theorem witness_texts :
    ("AC-42".toList.all (fun c => (charValue c).isSome)) = true ∧ charValue '!' = none ∧ '!' ∈ "A!".toList ∧
    (2 : Int) ≠ 1 ∧ EcLevel.Q ≠ .M := by decide
/-- PlainDebugStringIsTheStoredBits: the first digit and the last of a byte of a response. -/
theorem witness_digits : (0 : Nat) < 8 ∧ 7 < 8 ∧ ([0xA0#8, 0x00#8] : List Byte)[1]? = some 0x00#8 := by decide

end Sys2Proof.Tests
end

section
/-! The two units are independent (`00_scope.md` R2). Replacing the state of the unit a command does not belong to commutes
with executing the command, stops included; together with the frame lemmas of `Laws/Ops.lean` this is the obligation. -/

namespace Sys2Proof.Machine

/-- `s` with the GFU in state `g`. -/
def State.withGfu (s : State) (g : Gfu) : State := { s with gfu := g }

@[simp] theorem State.withGfu_bsp (s : State) (g : Gfu) : (s.withGfu g).bsp = s.bsp := rfl
@[simp] theorem State.withGfu_params (s : State) (g : Gfu) : (s.withGfu g).params = s.params := rfl

/-- An outcome with its next state, if it has one, changed by `f`; a stop stays as it is. -/
def mapNext (f : State → State) : Host.Outcome State Fault Refusal → Host.Outcome State Fault Refusal
  | .next s => .next (f s)
  | .fault r => .fault r
  | .refused r => .refused r

@[simp] theorem mapNext_next (f : State → State) (s : State) : mapNext f (.next s) = .next (f s) := rfl
@[simp] theorem mapNext_fault (f : State → State) (r : Fault) : mapNext f (.fault r) = .fault r := rfl
@[simp] theorem mapNext_refused (f : State → State) (r : Refusal) : mapNext f (.refused r) = .refused r := rfl

/-! ### Ending a command beside another state of the other unit -/

theorem respond_withGfu (r : Response) (s : State) (g : Gfu) :
    respond r (s.withGfu g) = mapNext (·.withGfu g) (respond r s) := rfl

theorem raise_withGfu (e : Status) (s : State) (g : Gfu) :
    raise e (s.withGfu g) = mapNext (·.withGfu g) (raise e s) := rfl

theorem finish_withGfu (b : Bsp) (s : State) (g : Gfu) :
    finish b (s.withGfu g) = mapNext (·.withGfu g) (finish b s) := rfl

theorem respond_withBsp (r : Response) (s : State) (b : Bsp) :
    respond r (s.withBsp b) = mapNext (·.withBsp b) (respond r s) := rfl

theorem raise_withBsp (e : Status) (s : State) (b : Bsp) :
    raise e (s.withBsp b) = mapNext (·.withBsp b) (raise e s) := rfl

/-! ### BSP commands -/

theorem append_withGfu (v n : Nat) (s : State) (g : Gfu) :
    append v n (s.withGfu g) = mapNext (·.withGfu g) (append v n s) := by
  unfold append
  rw [apply_ite (mapNext _), ← raise_withGfu, ← finish_withGfu, State.withGfu_params, State.withGfu_bsp]

/-- A BSP command neither reads nor writes the tables (R2). -/
theorem exec_withGfu {i : Instr} (hi : fieldCommand i = false) (s : State) (g : Gfu) :
    exec i (s.withGfu g) = mapNext (·.withGfu g) (exec i s) := by
  cases i with
  | bsCreate cap =>
    simp only [exec, execBsCreate]
    rw [apply_ite (mapNext _), ← raise_withGfu, ← finish_withGfu, State.withGfu_params]
  | bsAppend v n => exact append_withGfu v n s g
  | bsAppendA v => exact append_withGfu v (bitlen v) s g
  | bsPad => exact finish_withGfu s.bsp.padded s g
  | bsFill => exact finish_withGfu s.bsp.filled s g
  | bsExtract =>
    simp only [exec, execBsExtract]
    rw [apply_ite (mapNext _), ← respond_withGfu, mapNext_fault, State.withGfu_bsp]
  | bsLen => exact respond_withGfu _ s g
  | bsDump => exact respond_withGfu _ s g
  | gfAdd | gfSub | gfMul | gfDiv | gfPow => cases hi

/-! ### GFU commands -/

/-- A GFU command neither reads nor writes the stream (R2). -/
theorem exec_withBsp {i : Instr} (hi : fieldCommand i = true) (s : State) (b : Bsp) :
    exec i (s.withBsp b) = mapNext (·.withBsp b) (exec i s) := by
  cases i with
  | gfAdd x y => exact respond_withBsp _ s b
  | gfSub x y => exact respond_withBsp _ s b
  | gfMul x y => exact respond_withBsp _ s b
  | gfDiv x y =>
    simp only [exec, execGfDiv]
    split
    · exact raise_withBsp _ s b
    · exact respond_withBsp _ s b
  | gfPow x n =>
    simp only [exec, execGfPow]
    split
    · exact (mapNext_refused (·.withBsp b) .powZeroBase).symm
    · exact respond_withBsp _ s b
  | bsCreate | bsAppend | bsAppendA | bsPad | bsFill | bsExtract | bsLen | bsDump => cases hi

/-- The commands of the field unit are among those that only read (R58). -/
theorem readsOnly_of_fieldCommand {i : Instr} (hi : fieldCommand i = true) : readsOnly i = true := by
  cases i with
  | gfAdd | gfSub | gfMul | gfDiv | gfPow => rfl
  | bsCreate | bsAppend | bsAppendA | bsPad | bsFill | bsExtract | bsLen | bsDump => cases hi

/-- Settles O35: each half is a frame lemma and the commutation with replacing the other unit's state. -/
theorem theUnitsAreIndependent : Obligations.TheUnitsAreIndependent := by
  refine ⟨fun i s t g hi h => ⟨?_, ?_⟩, fun i s t b hi h => ⟨?_, ?_⟩⟩
  · obtain ⟨b, r, rfl⟩ := exec_next h
    rfl
  · calc exec i (s.withGfu g) = mapNext (·.withGfu g) (exec i s) := exec_withGfu hi s g
      _ = .next (t.withGfu g) := by rw [h, mapNext_next]
  · obtain ⟨r, rfl⟩ := exec_readsOnly (readsOnly_of_fieldCommand hi) h
    rfl
  · calc exec i (s.withBsp b) = mapNext (·.withBsp b) (exec i s) := exec_withBsp hi s b
      _ = .next (t.withBsp b) := by rw [h, mapNext_next]

end Sys2Proof.Machine
end

section
/-! The invariants of the stream, each by itself: a command keeps the cursor inside the storage (`10_state.md` R25) and the
stream zero ahead of the cursor (R26), whatever else holds of the state. -/

namespace Sys2Proof.Machine

/-! ### The cursor as a stream position -/

/-- The cursor invariants say that the cursor is at most at the end of the storage (R25). -/
theorem Bsp.cursorOk_iff (b : Bsp) : b.CursorOk ↔ b.pos ≤ 8 * b.len := by
  have hbit := b.bitCur.isLt
  unfold Bsp.CursorOk Bsp.pos
  rw [ne_eq, Fin.ext_iff, Fin.val_zero]
  omega

@[simp] theorem Bsp.created_pos (cap : Nat) : (Bsp.created cap).pos = 0 := rfl

theorem Bsp.padded_pos (b : Bsp) : b.padded.pos = 8 * ceil8 b.pos := by
  rw [Bsp.pos, Bsp.padded_byteCur, Bsp.padded_bitCur]
  rfl

@[simp] theorem Bsp.filled_pos (b : Bsp) : b.filled.pos = 8 * b.len := by
  rw [Bsp.pos, Bsp.filled_byteCur, Bsp.padded_len, Bsp.filled_bitCur]
  rfl

/-- Aligning the cursor never moves it back. -/
theorem Bsp.pos_le_padded_pos (b : Bsp) : b.pos ≤ b.padded.pos := by
  rw [Bsp.padded_pos, ceil8]
  omega

@[simp] theorem Memory.sbit_nil (k : Nat) : Memory.sbit [] k = false := by simp [Memory.sbit]

/-! ### What a command keeps -/

/-- The group of an append ends inside the storage the append leaves (R115, R116). -/
theorem Bsp.appended_pos_le (p : Params) (v n : Nat) (b : Bsp) (h : p.exceeds (b.need n) = false) :
    (b.appended p v n).pos ≤ 8 * (b.appended p v n).len := by
  have hneed : ceil8 (b.pos + n) ≤ (b.appended p v n).len := by
    rw [Bsp.appended_len]
    exact Bsp.need_le_grown_len p b (b.need n) h
  rw [Bsp.appended_pos]
  unfold ceil8 at hneed
  omega

/-- Growth keeps zero ahead: an old bit is as before, a bit of a new byte is 0 (R116). -/
theorem Bsp.ZeroAhead.grown {b : Bsp} (hz : b.ZeroAhead) (p : Params) (need : Nat) : (b.grown p need).ZeroAhead := by
  intro k hpos hlen
  rw [Bsp.grown_pos] at hpos
  by_cases hold : k < 8 * b.len
  · rw [Bsp.sbit_grown_old p b need k hold]
    exact hz k hpos hold
  · have hgrows : b.len < need := by
      by_contra hle
      rw [Bsp.grown_of_le b p need (by omega)] at hlen
      exact hold hlen
    exact Bsp.sbit_grown_new p b need k hgrows (by omega)

/-- A command keeps the cursor inside the storage (R25). -/
theorem Bsp.After.cursorOk {p : Params} {b b' : Bsp} (h : b.After p b') (hb : b.CursorOk) : b'.CursorOk := by
  rw [Bsp.cursorOk_iff] at *
  cases h with
  | same => exact hb
  | created cap _ => rw [Bsp.created_pos]; omega
  | appended v n hx => exact Bsp.appended_pos_le p v n b hx
  | padded => rw [Bsp.padded_pos, Bsp.padded_len, ceil8]; omega
  | filled => rw [Bsp.filled_pos, Bsp.filled_len, Bsp.padded_len]

/-- A command keeps the stream zero ahead of the cursor (R26): an append writes behind the new cursor only, and after
BS.FILL no bit is ahead. -/
theorem Bsp.After.zeroAhead {p : Params} {b b' : Bsp} (h : b.After p b') (hz : b.ZeroAhead) : b'.ZeroAhead := by
  cases h with
  | same => exact hz
  | created cap _ => exact fun k _ _ => Memory.sbit_nil k
  | appended v n _ =>
    intro k hpos hlen
    rw [Bsp.appended_pos] at hpos
    rw [Bsp.appended_len] at hlen
    rw [Bsp.sbit_appended, if_neg (by omega)]
    exact hz.grown p (b.need n) k (by rw [Bsp.grown_pos]; omega) hlen
  | padded =>
    intro k hpos hlen
    rw [Bsp.padded_len] at hlen
    rw [Bsp.padded_mem]
    exact hz k (b.pos_le_padded_pos.trans hpos) hlen
  | filled =>
    intro k hpos hlen
    rw [Bsp.filled_pos] at hpos
    rw [Bsp.filled_len, Bsp.padded_len] at hlen
    omega

/-- Settles O29: the five streams a step can leave, each with its cursor at most at the end of the storage. -/
theorem cursorInvariantsAreKept : Obligations.CursorInvariantsAreKept := by
  refine ⟨⟨by decide, by decide⟩, fun s t hs h => ?_⟩
  obtain ⟨hafter, -, -⟩ := step_after h
  exact ⟨Nat.le_of_lt_succ t.bsp.bitCur.isLt, hafter.cursorOk hs⟩

/-- Settles O30: the five streams a step can leave, each zero ahead of its cursor. -/
theorem streamIsZeroAheadOfTheCursor : Obligations.StreamIsZeroAheadOfTheCursor := by
  refine ⟨fun k _ _ => Memory.sbit_nil k, fun s t hs h => ?_⟩
  obtain ⟨hafter, -, -⟩ := step_after h
  exact hafter.zeroAhead hs

end Sys2Proof.Machine
end

section
/-! The tables reset builds are those of the construction (`10_state.md` R32 to R37): `EXP[i]` is the element after `i`
doublings at every index, `LOG` undoes it, every element other than 0 is reached, and doubling is the field's
multiplication by the polynomial `x`. -/

namespace Sys2Proof.Machine

/-! ### The entries of the tables -/

/-- The table repeats with period 255 (R37). -/
theorem Tables.drop_expEntries : Tables.expEntries.drop 255 = Tables.expEntries.take 257 := by decide +kernel

theorem Gfu.exp_reset_add_255 (i : Nat) (h : i < 257) :
    Gfu.reset.exp.entries[i + 255]? = Gfu.reset.exp.entries[i]? := by
  calc Tables.expEntries[i + 255]? = (Tables.expEntries.drop 255)[i]? := by rw [List.getElem?_drop, Nat.add_comm]
    _ = Tables.expEntries[i]? := by rw [Tables.drop_expEntries, List.getElem?_take_of_lt h]

/-- `EXP[i]` is the element after `i` doublings, at all 512 indices (R32, R37). -/
theorem Gfu.exp_reset_getElem? (i : Nat) (h : i < 512) : Gfu.reset.exp.entries[i]? = some (Tables.doubled i) := by
  induction i using Nat.strong_induction_on with
  | _ i ih =>
    by_cases hlow : i < 255
    · have hread : Gfu.reset.exp.entries[i % 255]? = some (Gfu.reset.expMod i) := List.getElem?_eq_getElem _
      rwa [Nat.mod_eq_of_lt hlow, Gfu.expMod_reset] at hread
    · obtain ⟨j, rfl⟩ : ∃ j, i = j + 255 := ⟨i - 255, by omega⟩
      rw [Gfu.exp_reset_add_255 j (by omega), ih j (by omega) (by omega), Tables.doubled_add_255]

/-- The entry of `LOG` at an element other than 0. -/
theorem Gfu.log_getElem? (g : Gfu) (x : Byte) (hx : x ≠ 0#8) :
    ∃ l : Fin 255, g.log.entries[x.toNat - 1]? = some l ∧ l.val = g.logAt x hx :=
  ⟨_, List.getElem?_eq_getElem _, rfl⟩

/-- `LOG` of the element after `i` doublings is `i` (R32). -/
theorem Gfu.log_reset_doubled (i : Fin 255) : Gfu.reset.log.entries[(Tables.doubled i).toNat - 1]? = some i := by
  obtain ⟨l, hl, hval⟩ := Gfu.log_getElem? Gfu.reset (Tables.doubled i) (Tables.doubled_ne_zero i)
  rw [Gfu.logAt_reset, Nat.mod_eq_of_lt i.isLt] at hval
  rw [hl, Fin.ext hval]

/-! ### Every element other than 0 is some number of doublings -/

theorem Byte.toNat_pos {x : Byte} (hx : x ≠ 0#8) : 0 < x.toNat :=
  Nat.pos_of_ne_zero fun h => hx (BitVec.eq_of_toNat_eq h)

/-- The place in `LOG` of the element after `i` doublings, element 1 at place 0. -/
def Tables.logPlace (i : Fin 255) : Fin 255 :=
  ⟨(Tables.doubled i).toNat - 1, by
    have hpos := Byte.toNat_pos (Tables.doubled_ne_zero i)
    have hlt := (Tables.doubled i).isLt
    omega⟩

/-- The entry at the place gives the number of doublings back, so different numbers have different places. -/
theorem Tables.logPlace_injective : Function.Injective Tables.logPlace := by
  intro i j hij
  have hplace : (Tables.doubled i).toNat - 1 = (Tables.doubled j).toNat - 1 := congrArg Fin.val hij
  have hlog := Gfu.log_reset_doubled i
  rw [hplace, Gfu.log_reset_doubled j] at hlog
  exact (Option.some.inj hlog).symm

/-- 255 numbers of doublings with different results reach all 255 elements other than 0. -/
theorem Tables.exists_doubled_eq (x : Byte) (hx : x ≠ 0#8) : ∃ i : Fin 255, Tables.doubled i = x := by
  have hpos := Byte.toNat_pos hx
  have hlt := x.isLt
  obtain ⟨i, hi⟩ := Finite.surjective_of_injective Tables.logPlace_injective ⟨x.toNat - 1, by omega⟩
  have hplace : (Tables.doubled i).toNat - 1 = x.toNat - 1 := congrArg Fin.val hi
  have hdpos := Byte.toNat_pos (Tables.doubled_ne_zero i)
  exact ⟨i, BitVec.eq_of_toNat_eq (by omega)⟩

/-! ### Doubling is multiplication by `x` -/

/-- The carry-less product by the polynomial `x` is a shift. -/
theorem carrylessProduct_two (a n : Nat) : carrylessProduct a 2 (n + 2) = 2 * a := by
  induction n with
  | zero => simp [carrylessProduct, bit, Nat.mul_comm]
  | succ n ih =>
    have hlt : 2 ^ 1 < 2 ^ (n + 2) := Nat.pow_lt_pow_right (by decide) (by omega)
    have hbit : bit 2 (n + 2) = false := by
      rw [bit_eq_testBit]
      exact Nat.testBit_lt_two_pow hlt
    rw [carrylessProduct, hbit, ih]
    rfl

/-- Bits above the degree of `r` reduce nothing. -/
theorem reducePoly_of_lt {r : Nat} (n k : Nat) (h : r < 2 ^ (n + 8)) : reducePoly r (n + k) = reducePoly r n := by
  induction k with
  | zero => rfl
  | succ k ih =>
    have hbit : bit r (n + k + 8) = false := by
      rw [bit_eq_testBit]
      exact Nat.testBit_lt_two_pow (h.trans_le (Nat.pow_le_pow_right (by decide) (by omega)))
    rw [← Nat.add_assoc, reducePoly, hbit]
    exact ih

/-- A polynomial of degree 8 less `POLY` is a byte. -/
theorem xor_poly_lt {w : Nat} (h1 : 256 ≤ w) (h2 : w < 512) : w ^^^ Config.poly < 256 := by
  have hhigh : (w ^^^ Config.poly) / 2 ^ 8 = 0 := by
    rw [Nat.xor_div_two_pow, show w / 2 ^ 8 = 1 by omega]
    rfl
  omega

/-- Multiplication by the polynomial `x` modulo `POLY` reduces once, where the shift leaves the byte. -/
theorem polyMul_two (v : Byte) :
    polyMul v 2#8 = if 256 ≤ 2 * v.toNat then 2 * v.toNat ^^^ Config.poly else 2 * v.toNat := by
  have hv := v.isLt
  have hbit : bit (2 * v.toNat) 8 = true ↔ 256 ≤ 2 * v.toNat := by
    rw [bit_eq_true_iff]
    omega
  calc polyMul v 2#8 = reducePoly (2 * v.toNat) (1 + 6) := congrArg (reducePoly · 7) (carrylessProduct_two v.toNat 6)
    _ = reducePoly (2 * v.toNat) 1 := reducePoly_of_lt 1 6 (by omega)
    _ = _ := by simp only [reducePoly, hbit, Nat.pow_zero, Nat.mul_one, Nat.zero_add]

/-- A step of the construction (R32) is the field's multiplication by the polynomial `x` (R168). -/
theorem Tables.double_toNat (v : Byte) : (Tables.double v).toNat = polyMul v 2#8 := by
  have hv := v.isLt
  rw [polyMul_two]
  unfold Tables.double
  rw [BitVec.toNat_ofNat]
  apply Nat.mod_eq_of_lt
  split
  · next h => exact xor_poly_lt h (by omega)
  · next h => omega

/-! ### The statements -/

/-- Settles O49: the entries as numbers of doublings, their period, and every element a number of doublings. -/
theorem tablesAreTheConstruction : Obligations.TablesAreTheConstruction := by
  refine ⟨fun i hi => Gfu.exp_reset_getElem? i (by omega), Gfu.log_reset_doubled, ?_, fun i h1 h2 => ?_,
    fun x hx => ?_, Tables.double_toNat⟩
  · rw [Gfu.exp_reset_getElem? 255 (by decide), Tables.doubled_255]
  · obtain ⟨j, rfl⟩ : ∃ j, i = j + 255 := ⟨i - 255, by omega⟩
    rw [Nat.add_sub_cancel]
    exact Gfu.exp_reset_add_255 j (by omega)
  · obtain ⟨i, rfl⟩ := Tables.exists_doubled_eq x hx
    exact ⟨i, Gfu.log_reset_doubled i, Gfu.exp_reset_getElem? i (by omega)⟩

/-- `BS.CREATE 1` right after reset leaves the stream of reset (R40), with the `BUF_MAX` of `State.reset` (log 4). -/
theorem exec_bsCreate_one_reset : exec (.bsCreate 1) State.reset = .next (State.reset.withResponse .done) := by
  have hfits : State.reset.params.exceeds 1 = false := by decide
  simp only [exec, execBsCreate, hfits]
  rfl

/-- Settles O39: the stream by its fields, the tables by the construction. -/
theorem resetState : Obligations.ResetState := by
  refine ⟨rfl, rfl, rfl, rfl, exec_bsCreate_one_reset, fun i hi => ?_, Gfu.log_reset_doubled, rfl, rfl⟩
  rw [← Tables.doubled_mod]
  exact Gfu.exp_reset_getElem? i (by omega)

end Sys2Proof.Machine
end

section
/-! Side effects of reads (`20_memory.md` R58). No command reads the response emitted before it, so a command that changes
nothing but the response answers the same when it is repeated. -/

namespace Sys2Proof.Machine

/-! ### Ending a command after an earlier response -/

@[simp] theorem respond_withResponse (r q : Response) (s : State) : respond r (s.withResponse q) = respond r s := rfl

@[simp] theorem raise_withResponse (e : Status) (q : Response) (s : State) : raise e (s.withResponse q) = raise e s := rfl

@[simp] theorem finish_withResponse (b : Bsp) (q : Response) (s : State) :
    finish b (s.withResponse q) = finish b s := rfl

@[simp] theorem append_withResponse (v n : Nat) (q : Response) (s : State) :
    append v n (s.withResponse q) = append v n s := rfl

/-! ### The statement -/

/-- No command reads the response emitted before it (R80): the outcome is the same whatever that response was. -/
theorem exec_withResponse (i : Instr) (s : State) (q : Response) : exec i (s.withResponse q) = exec i s := by
  cases i with
  | bsCreate cap => exact if_congr Iff.rfl (raise_withResponse _ q s) (finish_withResponse _ q s)
  | bsAppend v n => exact append_withResponse v n q s
  | bsAppendA v => exact append_withResponse v (bitlen v) q s
  | bsPad => exact finish_withResponse s.bsp.padded q s
  | bsFill => exact finish_withResponse s.bsp.filled q s
  | bsExtract => exact if_congr Iff.rfl (respond_withResponse _ q s) rfl
  | bsLen | bsDump | gfAdd | gfSub | gfMul => exact respond_withResponse _ q s
  | gfDiv a b => simp only [exec, execGfDiv, State.withResponse_gfu, raise_withResponse, respond_withResponse]
  | gfPow x n => simp only [exec, execGfPow, State.withResponse_gfu, respond_withResponse]

/-- Settles O26: a reading command changes the response alone, and no command reads that. -/
theorem readsChangeNoState : Obligations.ReadsChangeNoState := by
  intro i s t hr h
  obtain ⟨r, rfl⟩ := exec_readsOnly hr h
  refine ⟨rfl, rfl, rfl, rfl, ?_⟩
  rw [exec_withResponse]
  exact h

end Sys2Proof.Machine
end

section
/-! Command words by the numbers in their fields (`30_encoding.md` R81): the word of a command (R91), and the words that
match no row (R89). -/

namespace Sys2Proof

/-! ### The word of a command -/

/-- A number that fits a field is the number the field holds (R83). -/
theorem toNat_ofNat_of_lt {k x : Nat} (h : x < 2 ^ k) : (BitVec.ofNat k x).toNat = x := by
  rw [BitVec.toNat_ofNat, Nat.mod_eq_of_lt h]

/-- The number the payload of format C is (R82). -/
theorem payloadC_toNat {cap : Nat} (h : cap < 2 ^ Config.capField) :
    (0#32 ++ BitVec.ofNat 32 cap : BitVec 64).toNat = cap := by
  rw [toNat_append_eq_add, toNat_ofNat_of_lt h, BitVec.toNat_ofNat]
  omega

/-- The number the payload of format P is (R82). -/
theorem payloadP_toNat (x : Byte) {n : Nat} (h : n < 2 ^ Config.nField) :
    (0#24 ++ BitVec.ofNat 32 n ++ x : BitVec 64).toNat = n * 2 ^ 8 + x.toNat := by
  rw [toNat_append_eq_add, toNat_append_eq_add, toNat_ofNat_of_lt h, BitVec.toNat_ofNat]
  omega

/-- The word of a command without `AUTO` and `LENGTH`, all but BS.APPEND and BS.APPENDA (R82, R91). -/
theorem assemble_opPayload_toNat (op : BitVec 4) (payload : BitVec 64) :
    (assemble op 0#1 0#8 payload).toNat = op.toNat * 2 ^ 76 + payload.toNat := by
  rw [assemble_toNat, BitVec.toNat_ofNat, BitVec.toNat_ofNat]
  omega

/-- The word of a GFU command with two operands (R82, R91). -/
theorem assemble_payloadG_toNat (op : BitVec 4) (a b : Byte) :
    (assemble op 0#1 0#8 (payloadG a b)).toNat = op.toNat * 2 ^ 76 + b.toNat * 2 ^ 8 + a.toNat := by
  rw [assemble_opPayload_toNat, payloadG_toNat, Nat.add_assoc]

/-- Settles O4: an assembled word is the number of its fields, and each operand is the number its field holds. -/
theorem commandWordLayout : Obligations.CommandWordLayout := by
  refine ⟨fun i hi => ?_, by decide, by decide, by decide, by decide, by decide⟩
  cases i with
  | bsCreate cap =>
    have hcap : cap < 2 ^ Config.capField := of_decide_eq_true hi
    rw [encode, assemble_opPayload_toNat, payloadC_toNat hcap]
    rfl
  | bsAppend value length =>
    obtain ⟨hvalue, hlength⟩ : value < 2 ^ Config.valWidth ∧ length < 2 ^ Config.lenField := by
      simpa [Instr.wellFormed] using hi
    rw [encode, assemble_toNat, toNat_ofNat_of_lt hvalue, toNat_ofNat_of_lt hlength]
    rfl
  | bsAppendA value =>
    have hvalue : value < 2 ^ Config.valWidth := of_decide_eq_true hi
    rw [encode, assemble_toNat, toNat_ofNat_of_lt hvalue]
    rfl
  | bsPad | bsFill | bsExtract | bsLen | bsDump => rfl
  | gfAdd a b | gfSub a b | gfMul a b | gfDiv a b => exact assemble_payloadG_toNat _ a b
  | gfPow x n =>
    have hn : n < 2 ^ Config.nField := of_decide_eq_true hi
    rw [encode, assemble_opPayload_toNat, payloadP_toNat x hn, ← Nat.add_assoc]
    rfl

/-! ### The fields of a word -/

/-- The numbers in the fields of the word `w` (R81). -/
structure HasFields (w op auto rsv length payload : Nat) : Prop where
  word : w = op * 2 ^ 76 + auto * 2 ^ 75 + rsv * 2 ^ 72 + length * 2 ^ 64 + payload
  op_lt : op < 16
  auto_lt : auto < 2
  rsv_lt : rsv < 8
  length_lt : length < 256
  payload_lt : payload < 2 ^ 64

/-- Every word is made of its fields. -/
theorem hasFields (cw : CommandWord) :
    HasFields cw.toNat (cw.toNat / 2 ^ 76 % 16) (cw.toNat / 2 ^ 75 % 2) (cw.toNat / 2 ^ 72 % 8)
      (cw.toNat / 2 ^ 64 % 256) (cw.toNat % 2 ^ 64) := by
  have hw := cw.isLt
  constructor <;> omega

namespace HasFields

variable {w op auto rsv length payload : Nat} (h : HasFields w op auto rsv length payload)
include h

/-- The test of a row that fixes all but the low `k` bits, `k` at most 64: the opcode, no other header bit, and no
payload bit from `k` up (R84). -/
theorem payloadRow_iff {k j : Nat} (hk : k ≤ 64) (hj : k + j = 76) (c : Nat) :
    w / 2 ^ k = c * 2 ^ j ↔ op = c ∧ auto = 0 ∧ rsv = 0 ∧ length = 0 ∧ payload / 2 ^ k = 0 := by
  obtain ⟨hw, hop, hauto, hrsv, hlen, hpay⟩ := h
  have hheader : w / 2 ^ 64 = c * 2 ^ 12 ↔ op = c ∧ auto = 0 ∧ rsv = 0 ∧ length = 0 := by omega
  have hlow : w % 2 ^ 64 = payload := by omega
  have hdiv : w / 2 ^ 64 = w / 2 ^ k / 2 ^ (64 - k) := by
    rw [Nat.div_div_eq_div_mul, ← Nat.pow_add, Nat.add_sub_cancel' hk]
  have hmod : payload / 2 ^ k = w / 2 ^ k % 2 ^ (64 - k) := by
    rw [← Nat.mod_mul_right_div_self, ← Nat.pow_add, Nat.add_sub_cancel' hk, hlow]
  calc w / 2 ^ k = c * 2 ^ j
      ↔ w / 2 ^ k / 2 ^ (64 - k) = c * 2 ^ 12 ∧ w / 2 ^ k % 2 ^ (64 - k) = 0 := by
        rw [show j = 12 + (64 - k) by omega, Nat.pow_add, ← Nat.mul_assoc]
        rw [Nat.div_mod_unique (Nat.two_pow_pos _), Nat.zero_add, Nat.mul_comm, eq_comm]
        exact (and_iff_left (Nat.two_pow_pos _)).symm
    _ ↔ _ := by rw [← hdiv, ← hmod, hheader]; simp only [and_assoc]

/-- The test of a row that fixes the whole word (R84). -/
theorem wordRow_iff (c : Nat) :
    w = c * 2 ^ 76 ↔ op = c ∧ auto = 0 ∧ rsv = 0 ∧ length = 0 ∧ payload = 0 := by
  obtain ⟨hw, hop, hauto, hrsv, hlen, hpay⟩ := h
  omega

/-- The test of BS.APPEND's row (R84). -/
theorem appendRow_iff : w / 2 ^ 72 = 0x20 ↔ op = 2 ∧ auto = 0 ∧ rsv = 0 := by
  obtain ⟨hw, hop, hauto, hrsv, hlen, hpay⟩ := h
  omega

/-- The test of BS.APPENDA's row (R84). -/
theorem appendARow_iff : w / 2 ^ 64 = 0x2800 ↔ op = 2 ∧ auto = 1 ∧ rsv = 0 ∧ length = 0 := by
  obtain ⟨hw, hop, hauto, hrsv, hlen, hpay⟩ := h
  omega

end HasFields

/-! ### The words that match no row -/

/-- A test that answers a command gives no error. -/
theorem ite_ok_eq_error_iff {p : Prop} [Decidable p] (i : Instr) (x : Except IllegalWord Instr) :
    (∃ e, (if p then .ok i else x) = .error e) ↔ ¬ p ∧ ∃ e, x = .error e := by
  by_cases hp : p <;> simp [hp]

/-- A word decodes to no command exactly when it is in R89's list: of each opcode's rows none is met. -/
theorem decode_eq_error_iff (cw : CommandWord) : (∃ e, decode cw = .error e) ↔ Machine.WordIllegal cw := by
  have h := hasFields cw
  have hop := h.op_lt
  have hauto := h.auto_lt
  have rowC := h.payloadRow_iff (k := 32) (j := 44) (by decide) rfl
  have rowG := h.payloadRow_iff (k := 16) (j := 60) (by decide) rfl
  have rowP := h.payloadRow_iff (k := 40) (j := 36) (by decide) rfl
  simp only [decode_eq, ite_ok_eq_error_iff, Except.error.injEq, exists_eq', and_true, rowC, h.appendRow_iff,
    h.appendARow_iff, h.wordRow_iff, rowG, rowP, Machine.WordIllegal]
  generalize cw.toNat / 2 ^ 76 % 16 = op, cw.toNat / 2 ^ 75 % 2 = auto, cw.toNat / 2 ^ 72 % 8 = rsv,
    cw.toNat / 2 ^ 64 % 256 = length, cw.toNat % 2 ^ 64 = payload at hop hauto ⊢
  -- Of one opcode's rows at most two are left, and R89 names the fields they fix.
  interval_cases op <;> simp <;> omega

end Sys2Proof

namespace Sys2Proof.Machine

/-- A step on a word that decodes to no command takes the word and raises IllegalCommand (R89, R227). -/
theorem step_of_decode_error {s : State} {cw : CommandWord} {rest : List CommandWord} {e : IllegalWord}
    (hc : s.commands = cw :: rest) (hd : decode cw = .error e) :
    step s = .next ((s.withCommands rest).withResponse (.error .illegalCommand)) := by
  simp only [step, hc, execWord, hd]
  rfl

/-- Settles O6: the words of R89 are those that meet no row, and the step raises IllegalCommand on such a word. -/
theorem illegalWordsRaiseIllegalCommand : Obligations.IllegalWordsRaiseIllegalCommand := by
  refine ⟨decode_eq_error_iff, fun s cw rest hc hill => ?_, by decide, .inl (by decide), ?_⟩
  · obtain ⟨e, hd⟩ := (decode_eq_error_iff cw).2 hill
    exact step_of_decode_error hc hd
  · have hop : (0xFFFFFFFFFFFFFFFFFFFF#80).toNat / 2 ^ 76 % 16 = 0xF := by decide
    exact .inr (.inr (.inr (.inl hop)))

end Sys2Proof.Machine
end

section
/-! What each command of the bit-stream packer answers, said once: the outcome of its execution as an equation or as an
inversion (`40_bitstream.md` R112 to R134), and every bit an append leaves beside its group. -/

namespace Sys2Proof

/-! ### Words of the commands -/

/-- The word of format C with `CAP = cap` (R112). -/
theorem decode_formatC {cap : Nat} (h : cap < 2 ^ 32) :
    decode (BitVec.ofNat 80 (0x1 * 2 ^ 76 + cap)) = .ok (.bsCreate cap) := by
  have hrow : (0x1 * 2 ^ 76 + cap) / 2 ^ 32 = 0x1 * 2 ^ 44 := by omega
  have hcap : (0x1 * 2 ^ 76 + cap) % 2 ^ 32 = cap := by omega
  rw [decode_eq, toNat_ofNat_of_lt (by omega), if_pos hrow, hcap]

/-- The word of format AA with `VALUE = value` (R120). -/
theorem decode_formatAA {value : Nat} (h : value < 2 ^ 64) :
    decode (BitVec.ofNat 80 (0x2 * 2 ^ 76 + 2 ^ 75 + value)) = .ok (.bsAppendA value) := by
  have hrow : (0x2 * 2 ^ 76 + 2 ^ 75 + value) / 2 ^ 64 = 0x2800 := by omega
  have hvalue : (0x2 * 2 ^ 76 + 2 ^ 75 + value) % 2 ^ 64 = value := by omega
  rw [decode_eq, toNat_ofNat_of_lt (by omega), if_neg (by omega), if_neg (by omega), if_pos hrow, hvalue]

end Sys2Proof

namespace Sys2Proof.Machine

/-! ### Outcomes -/

/-- BS.CREATE ends in CapacityExceeded or in the fresh stream (R112). -/
theorem exec_bsCreate_eq (cap : Nat) (s : State) :
    exec (.bsCreate cap) s = if s.params.exceeds cap then .next (s.withResponse (.error .capacityExceeded))
      else .next ((s.withBsp (Bsp.created cap)).withResponse .done) := rfl

theorem exec_bsAppend (v n : Nat) (s : State) : exec (.bsAppend v n) s = append v n s := rfl

theorem exec_bsAppendA (v : Nat) (s : State) : exec (.bsAppendA v) s = append v (bitlen v) s := rfl

theorem exec_bsPad (s : State) : exec .bsPad s = .next ((s.withBsp s.bsp.padded).withResponse .done) := rfl

theorem exec_bsFill (s : State) : exec .bsFill s = .next ((s.withBsp s.bsp.filled).withResponse .done) := rfl

/-- BS.EXTRACT of written bytes inside the storage returns them (R128). -/
theorem exec_bsExtract {s : State} (h : s.bsp.prefixLength ≤ s.bsp.len) :
    exec .bsExtract s =
      .next (s.withResponse ⟨.ok, 0, s.bsp.prefixLength, s.bsp.mem.read 0 s.bsp.prefixLength⟩) := if_pos h

theorem exec_bsLen (s : State) : exec .bsLen s = .next (s.withResponse ⟨.ok, 0, s.bsp.len, []⟩) := rfl

theorem exec_bsDump (s : State) :
    exec .bsDump s = .next (s.withResponse ⟨.ok, s.bsp.bitCur, s.bsp.len, s.bsp.mem.read 0 s.bsp.len⟩) := rfl

/-- An append within `BUF_MAX` completes (R116, R117). -/
theorem append_of_fits {v n : Nat} {s : State} (h : s.params.exceeds (s.bsp.need n) = false) :
    append v n s = .next ((s.withBsp (s.bsp.appended s.params v n)).withResponse .done) := by
  rw [append_eq, h]
  rfl

/-- An append that answers OK is within `BUF_MAX` and leaves the appended stream. -/
theorem append_done {v n : Nat} {s t : State} (h : append v n s = .next t) (hr : t.response = some .done) :
    s.params.exceeds (s.bsp.need n) = false ∧ t = (s.withBsp (s.bsp.appended s.params v n)).withResponse .done := by
  rw [append_eq] at h
  split at h <;> injection h with h <;> subst h
  · cases hr
  · next hx => exact ⟨by simpa using hx, rfl⟩

/-- BS.CREATE that answers OK leaves the fresh stream. -/
theorem exec_bsCreate_done {cap : Nat} {s t : State} (h : exec (.bsCreate cap) s = .next t)
    (hr : t.response = some .done) : t = (s.withBsp (Bsp.created cap)).withResponse .done := by
  rw [exec_bsCreate_eq] at h
  split at h <;> injection h with h <;> subst h
  · cases hr
  · rfl

/-- BS.EXTRACT that answers at all returns the written bytes (R128). -/
theorem exec_bsExtract_next {s t : State} (h : exec .bsExtract s = .next t) :
    t = s.withResponse ⟨.ok, 0, s.bsp.prefixLength, s.bsp.mem.read 0 s.bsp.prefixLength⟩ := by
  by_cases hp : s.bsp.prefixLength ≤ s.bsp.len
  · rw [exec_bsExtract hp] at h
    injection h with h
    exact h.symm
  · rw [show exec .bsExtract s = .fault .storageOutOfRange from if_neg hp] at h
    cases h

/-! ### The stream an append leaves -/

/-- Growth happens only when `need > LEN` (R116). -/
theorem Bsp.appended_len_of_le {p : Params} {v n : Nat} {b : Bsp} (h : b.need n ≤ b.len) :
    (b.appended p v n).len = b.len := by
  rw [Bsp.appended_len, Bsp.grown_of_le b p _ h]

theorem Bsp.appended_len_of_gt {p : Params} {v n : Nat} {b : Bsp} (h : b.len < b.need n) :
    (b.appended p v n).len = p.grow b.len (b.need n) := by
  rw [Bsp.appended_len, Bsp.grown_of_gt b p _ h]

/-- The group's bits at the cursor, most significant first (R117, R52). -/
theorem Bsp.sbit_appended_group (p : Params) (v n j : Nat) (b : Bsp) (hj : j < n) :
    (b.appended p v n).mem.sbit (b.pos + j) = bit v (n - 1 - j) := by
  rw [Bsp.sbit_appended, if_pos (by omega), Nat.add_sub_cancel_left]

/-- An old bit outside the group is unchanged (R117). -/
theorem Bsp.sbit_appended_old (p : Params) (v n k : Nat) (b : Bsp) (hk : k < 8 * b.len)
    (hout : k < b.pos ∨ b.pos + n ≤ k) : (b.appended p v n).mem.sbit k = b.mem.sbit k := by
  rw [Bsp.sbit_appended, if_neg (by omega), Bsp.sbit_grown_old p b _ k hk]

/-- A new bit outside the group is 0 (R116). -/
theorem Bsp.sbit_appended_new (p : Params) (v n k : Nat) (b : Bsp) (hold : 8 * b.len ≤ k)
    (hk : k < 8 * (b.appended p v n).len) (hout : k < b.pos ∨ b.pos + n ≤ k) :
    (b.appended p v n).mem.sbit k = false := by
  have hgrows : b.len < b.need n := by
    by_contra hle
    rw [Bsp.appended_len_of_le (by omega)] at hk
    omega
  rw [Bsp.sbit_appended, if_neg (by omega), Bsp.sbit_grown_new p b _ k hgrows hold]

/-! ### The stream BS.FILL leaves -/

/-- Every byte of the stream BS.FILL leaves: the pad bytes from the aligned cursor to the end of the storage, every
other byte as before (R125). -/
theorem Bsp.get_filled (b : Bsp) (i : Nat) :
    b.filled.mem.get i = if ceil8 b.pos ≤ i ∧ i < b.len then padByte (i - ceil8 b.pos) else b.mem.get i := by
  rw [Bsp.filled_mem, Memory.get_fillPads, Bsp.padded_byteCur, Bsp.padded_len, Bsp.padded_mem]
  exact if_congr (by omega) rfl rfl

/-! ### The statements about one command -/

/-- Settles O14: the format C word, and the two outcomes of BS.CREATE. -/
theorem createMakesAZeroFilledStream : Obligations.CreateMakesAZeroFilledStream := by
  refine ⟨fun cap hcap => decode_formatC hcap, fun cap s hfits => ?_, fun cap s hx => ?_⟩
  · refine ⟨Bsp.created cap, ?_, rfl, fun i _ => Memory.get_nil i, rfl, rfl⟩
    rw [exec_bsCreate_eq, hfits]
    rfl
  · rw [exec_bsCreate_eq, hx]
    rfl

/-- Settles O15: the appended stream at the group's bits, and outside them. -/
theorem appendWritesTheGroupAtTheCursor : Obligations.AppendWritesTheGroupAtTheCursor := by
  intro s value length hfits
  refine ⟨s.bsp.appended s.params value length, append_of_fits hfits, fun j hj => ?_, fun k hk hout => ?_,
    Bsp.appended_byteCur _ _ _ _, Bsp.appended_bitCur_val _ _ _ _⟩
  · rw [Bsp.sbit_appended_group _ _ _ _ _ hj, bit_eq_true_iff]
  · exact Bsp.sbit_appended_old _ _ _ _ _ hk hout

/-- Settles O16: the two outcomes of an append, and the storage after it by whether it grew. -/
theorem appendGrowsTheStorage : Obligations.AppendGrowsTheStorage := by
  rintro s value length need rfl
  refine ⟨fun hx => ?_, fun hfits => ?_⟩
  · rw [exec_bsAppend, append_eq]
    exact if_pos hx
  · refine ⟨s.bsp.appended s.params value length, append_of_fits hfits, Bsp.appended_len_of_le, fun hgrows => ?_,
      fun k hk hout => Bsp.sbit_appended_old _ _ _ _ _ hk hout⟩
    have hlen : (s.bsp.appended s.params value length).len = s.params.grow s.bsp.len (s.bsp.need length) :=
      Bsp.appended_len_of_gt hgrows
    obtain ⟨hneed, hmax⟩ := Params.grow_bounds s.params s.bsp.len (s.bsp.need length) hfits
    refine ⟨hlen, hlen ▸ hneed, hlen ▸ hmax, fun hexact => ?_,
      fun k hold hk hout => Bsp.sbit_appended_new _ _ _ _ _ hold hk hout⟩
    exact hlen.trans (Params.grow_exactFit _ _ _ hexact)

/-- The automatic length of a 64-bit value fits the length an append of one word can have (R11). -/
theorem bitlen_le_64 {v : Nat} (h : v < 2 ^ 64) : 1 ≤ bitlen v ∧ bitlen v ≤ 64 := by
  by_cases h0 : v = 0
  · subst h0
    decide
  · obtain ⟨hone, hlow, -⟩ := bitlen_bounds v (by omega)
    have hexp : bitlen v - 1 < 64 := (Nat.pow_lt_pow_iff_right (by decide)).1 (hlow.trans_lt h)
    omega

/-- Settles O17: the format AA word, the bounds of `bitlen`, and BS.APPENDA as an append. -/
theorem automaticAppendUsesTheMinimalWidth : Obligations.AutomaticAppendUsesTheMinimalWidth := by
  refine ⟨fun value hvalue => decode_formatAA hvalue, rfl, bitlen_bounds, fun v hv => bitlen_le_64 hv,
    exec_bsAppendA, fun value s hfits => ?_⟩
  exact ⟨s.bsp.appended s.params value (bitlen value), append_of_fits hfits, Bsp.appended_pos _ _ _ _⟩

/-- Settles O19: the aligned cursor, by whether the current byte is partly written. -/
theorem padAlignsTheCursor : Obligations.PadAlignsTheCursor := by
  refine ⟨by decide, fun s => ⟨s.bsp.padded, exec_bsPad s, Bsp.padded_mem _, Bsp.padded_len _, Bsp.padded_bitCur _,
    fun h => ?_, fun h => ?_⟩⟩
  · rw [Bsp.padded, if_pos h]
  · rw [Bsp.padded, if_neg h]

/-- Settles O20: the filled stream at the pad bytes, counted from the aligned cursor, and outside them. -/
theorem fillPadsToTheEndOfTheStorage : Obligations.FillPadsToTheEndOfTheStorage := by
  refine ⟨by decide, fun s => ⟨s.bsp.filled, exec_bsFill s, Bsp.padded_len _, Bsp.padded_len _, rfl,
    fun k hk => ?_, fun i hi => ?_⟩⟩
  · change ceil8 s.bsp.pos + k < s.bsp.len at hk
    change s.bsp.filled.mem.get (ceil8 s.bsp.pos + k) = padByte k
    rw [Bsp.get_filled, if_pos (by omega), Nat.add_sub_cancel_left]
  · change i < ceil8 s.bsp.pos ∨ s.bsp.len ≤ i at hi
    rw [Bsp.get_filled, if_neg (by omega)]

/-- Settles O22: the written bytes end inside the storage where the cursor does, so all are read. -/
theorem extractReturnsTheWrittenPrefix : Obligations.ExtractReturnsTheWrittenPrefix := by
  refine ⟨by decide, fun s hcursor => ?_⟩
  have hinside : s.bsp.prefixLength ≤ s.bsp.len := by
    rw [Bsp.cursorOk_iff] at hcursor
    rw [Bsp.prefixLength_eq, ceil8]
    omega
  refine ⟨_, _, exec_bsExtract hinside, fun h => ?_, fun h => ?_, Bsp.prefixLength_eq _, hinside,
    Memory.read_length _ _ _, fun i hi => ?_⟩
  · rw [Bsp.prefixLength, if_pos h, Nat.add_zero]
  · rw [Bsp.prefixLength, if_neg h]
  · rw [Memory.read_getElem? _ _ _ _ hi, Nat.zero_add]

/-- Settles O25: the bytes of the whole storage, read one by one. -/
theorem dumpReturnsEveryByte : Obligations.DumpReturnsEveryByte := by
  refine ⟨by decide, fun s => ⟨_, exec_bsDump s, Memory.read_length _ _ _, fun i hi => ?_⟩⟩
  rw [Memory.read_getElem? _ _ _ _ hi, Nat.zero_add]

end Sys2Proof.Machine
end

section
/-! The concatenation law (`40_bitstream.md` R137): what a run of appends leaves, from any stream whose cursor is inside
the storage. The law after BS.CREATE, the capacity BS.LEN reports (R131) and the table of R138 follow. -/

namespace Sys2Proof.Machine

/-! ### A run of appends -/

/-- A run of appends that reaches its end runs its first append within `BUF_MAX`, and the rest from the stream that
leaves. -/
theorem runAppends_cons {v n : Nat} {rest : List (Nat × Nat)} {s u : State}
    (h : runAppends ((v, n) :: rest) s = some u) :
    s.params.exceeds (s.bsp.need n) = false ∧
      runAppends rest ((s.withBsp (s.bsp.appended s.params v n)).withResponse .done) = some u := by
  unfold runAppends at h
  split at h
  · next t hexec =>
    split at h
    · next hdone =>
      obtain ⟨hfits, rfl⟩ := append_done hexec hdone
      exact ⟨hfits, h⟩
    · cases h
  · cases h

/-- With `BUF_MAX` infinite every append answers OK (R137). -/
theorem exists_runAppends (groups : List (Nat × Nat)) (s : State) (h : s.params.bufMax = none) :
    ∃ u, runAppends groups s = some u := by
  induction groups generalizing s with
  | nil => exact ⟨s, rfl⟩
  | cons g rest ih =>
    obtain ⟨v, n⟩ := g
    have hfits : s.params.exceeds (s.bsp.need n) = false := by rw [Params.exceeds, h]
    obtain ⟨u, hu⟩ := ih ((s.withBsp (s.bsp.appended s.params v n)).withResponse .done) h
    refine ⟨u, ?_⟩
    simpa [runAppends, exec_bsAppend, append_of_fits hfits] using hu

/-! ### Concatenation -/

theorem ceil8_mono {t u : Nat} (h : t ≤ u) : ceil8 t ≤ ceil8 u := Nat.div_le_div_right (by omega)

/-- The stream bits up to the cursor after an append: those before, then the group. -/
theorem Bsp.streamBits_appended (p : Params) (v n : Nat) {b : Bsp} (hb : b.CursorOk) :
    (b.appended p v n).mem.streamBits (b.pos + n) = b.mem.streamBits b.pos ++ groupBits v n := by
  rw [Bsp.cursorOk_iff] at hb
  rw [Memory.streamBits, List.range_add, List.map_append, List.map_map]
  refine congrArg₂ _ (List.map_congr_left fun k hk => ?_) (List.map_congr_left fun j hj => ?_)
  · have hlt : k < b.pos := List.mem_range.1 hk
    exact Bsp.sbit_appended_old p v n k b (by omega) (.inl hlt)
  · exact Bsp.sbit_appended_group p v n j b (List.mem_range.1 hj)

/-- `b'` is the stream `b` with `groups` appended one after the other: the groups' bits follow those of `b`, and the
storage has grown only if they needed it, exactly as far as they did under exact fit (R116, R137). -/
structure Bsp.Concatenates (p : Params) (groups : List (Nat × Nat)) (b b' : Bsp) : Prop where
  /-- the cursor has advanced by the sum of the lengths -/
  pos : b'.pos = b.pos + (groups.map (fun g => g.2)).sum
  /-- the bits up to the cursor -/
  bits : b'.mem.streamBits b'.pos = b.mem.streamBits b.pos ++ groups.flatMap (fun g => groupBits g.1 g.2)
  /-- the bits from the cursor on -/
  zeroAhead : b.ZeroAhead → b'.ZeroAhead
  /-- the storage reaches the cursor -/
  need_le : ceil8 b'.pos ≤ b'.len
  /-- no growth that was not needed -/
  len_of_le : ceil8 b'.pos ≤ b.len → b'.len = b.len
  /-- needed growth under exact fit -/
  len_of_gt : b.len < ceil8 b'.pos → p.growTable = [] → b'.len = ceil8 b'.pos

theorem Bsp.Concatenates.nil {p : Params} {b : Bsp} (hb : b.CursorOk) : Bsp.Concatenates p [] b b := by
  have hneed : ceil8 b.pos ≤ b.len := by
    rw [Bsp.cursorOk_iff] at hb
    rw [ceil8]
    omega
  exact ⟨rfl, (List.append_nil _).symm, id, hneed, fun _ => rfl, fun h => absurd hneed (by omega)⟩

/-- One append before a run of them. -/
theorem Bsp.Concatenates.cons {p : Params} {v n : Nat} {rest : List (Nat × Nat)} {b b' : Bsp} (hb : b.CursorOk)
    (hfits : p.exceeds (b.need n) = false) (h : Bsp.Concatenates p rest (b.appended p v n) b') :
    Bsp.Concatenates p ((v, n) :: rest) b b' := by
  obtain ⟨hpos, hbits, hzero, hneed, hle, hgt⟩ := h
  rw [Bsp.appended_pos] at hpos hbits
  have hfirst : b.need n ≤ ceil8 b'.pos := ceil8_mono (by omega)
  refine ⟨?_, ?_, fun hz => hzero ((Bsp.After.appended v n hfits).zeroAhead hz), hneed, fun hfit => ?_,
    fun hgrows hexact => ?_⟩
  · rw [hpos, List.map_cons, List.sum_cons, Nat.add_assoc]
  · rw [hbits, Bsp.streamBits_appended p v n hb, List.flatMap_cons, List.append_assoc]
  · have hlen : (b.appended p v n).len = b.len := Bsp.appended_len_of_le (hfirst.trans hfit)
    rw [hle (hlen ▸ hfit), hlen]
  · by_cases hrest : (b.appended p v n).len < ceil8 b'.pos
    · exact hgt hrest hexact
    · -- The first append grew the storage for the whole run, so it needed as much as the run did.
      have hlen : (b.appended p v n).len = b.need n := by
        by_cases hn : b.need n ≤ b.len
        · rw [Bsp.appended_len_of_le hn] at hrest
          omega
        · rw [Bsp.appended_len_of_gt (by omega), Params.grow_exactFit _ _ _ hexact]
      have hlast := hle (by omega)
      omega

/-- A run of appends concatenates its groups, from any stream with the cursor inside the storage. -/
theorem runAppends_concatenates {groups : List (Nat × Nat)} {s u : State} (hs : s.bsp.CursorOk)
    (h : runAppends groups s = some u) : Bsp.Concatenates s.params groups s.bsp u.bsp := by
  induction groups generalizing s with
  | nil =>
    cases h
    exact .nil hs
  | cons g rest ih =>
    obtain ⟨hfits, hrest⟩ := runAppends_cons h
    exact .cons hs hfits (ih ((Bsp.After.appended _ _ hfits).cursorOk hs) hrest)

/-- A run of appends on a fresh stream. -/
theorem runAppends_created {groups : List (Nat × Nat)} {cap : Nat} {s t u : State}
    (hcreate : exec (.bsCreate cap) s = .next t) (hdone : t.response = some .done)
    (hrun : runAppends groups t = some u) : Bsp.Concatenates s.params groups (Bsp.created cap) u.bsp := by
  obtain rfl := exec_bsCreate_done hcreate hdone
  exact runAppends_concatenates (s := (s.withBsp (Bsp.created cap)).withResponse .done)
    ((Bsp.cursorOk_iff _).2 (Nat.zero_le _)) hrun

/-- Settles O27: a run of appends concatenates, here from a fresh stream. -/
theorem appendsConcatenate : Obligations.AppendsConcatenate := by
  intro s t u cap groups hcreate hdone
  refine ⟨fun hinf => ?_, fun hrun => ?_⟩
  · obtain rfl := exec_bsCreate_done hcreate hdone
    exact exists_runAppends groups _ hinf
  · obtain ⟨hpos, hbits, hzero, hneed, hle, hgt⟩ := runAppends_created hcreate hdone hrun
    rw [Bsp.created_pos, Nat.zero_add] at hpos
    exact ⟨hpos, hbits, hzero fun k _ _ => Memory.sbit_nil k, hle, fun hgrows => ⟨hneed, hgt hgrows⟩⟩

/-! ### What changes the capacity -/

/-- An append that changes `LEN` needed more (R116). -/
theorem append_len_ne {v n : Nat} {s t : State} (h : append v n s = .next t) (hne : t.bsp.len ≠ s.bsp.len) :
    s.bsp.len < s.bsp.need n := by
  by_contra hle
  rw [append_eq] at h
  split at h <;> injection h with h <;> subst h
  · exact hne rfl
  · exact hne (Bsp.appended_len_of_le (by omega))

/-- A command that only reads leaves the stream. -/
theorem exec_readsOnly_bsp {i : Instr} {s t : State} (hi : readsOnly i = true) (h : exec i s = .next t) :
    t.bsp = s.bsp := by
  obtain ⟨r, rfl⟩ := exec_readsOnly hi h
  rfl

/-- `LEN` changes by BS.CREATE and by a growing append only (R131). -/
theorem exec_len_ne {i : Instr} {s t : State} (h : exec i s = .next t) (hne : t.bsp.len ≠ s.bsp.len) :
    (∃ cap, i = .bsCreate cap) ∨
    (∃ value length, i = .bsAppend value length ∧ s.bsp.len < s.bsp.need length) ∨
    (∃ value, i = .bsAppendA value ∧ s.bsp.len < s.bsp.need (bitlen value)) := by
  cases i with
  | bsCreate cap => exact .inl ⟨cap, rfl⟩
  | bsAppend v n => exact .inr (.inl ⟨v, n, rfl, append_len_ne h hne⟩)
  | bsAppendA v => exact .inr (.inr ⟨v, rfl, append_len_ne h hne⟩)
  | bsPad =>
    injection h with h
    subst h
    exact absurd (Bsp.padded_len _) hne
  | bsFill =>
    injection h with h
    subst h
    exact absurd (Bsp.padded_len _) hne
  | bsExtract | bsLen | bsDump | gfAdd | gfSub | gfMul | gfDiv | gfPow =>
    exact absurd (congrArg Bsp.len (exec_readsOnly_bsp rfl h)) hne

/-- Settles O24: the response of BS.LEN, the capacity after a run of appends that fits, and what changes it. -/
theorem lenReturnsTheCapacity : Obligations.LenReturnsTheCapacity := by
  refine ⟨by decide, exec_bsLen, exec_bsLen _, fun s t u cap groups hcreate hdone hrun hfit => ?_,
    fun i s t h hne => exec_len_ne h hne⟩
  have hconcat := runAppends_created hcreate hdone hrun
  have hneed : ceil8 u.bsp.pos ≤ cap := by
    rw [hconcat.pos, Bsp.created_pos, ceil8]
    omega
  have hlen : u.bsp.len = cap := hconcat.len_of_le hneed
  rw [exec_bsLen, hlen]

/-! ### The table of R138 -/

/-- The response of an append has no data (R87). -/
theorem append_data {v n : Nat} {s t : State} {r : Response} (h : append v n s = .next t) (hr : t.response = some r) :
    r.data = [] := by
  rw [append_eq] at h
  split at h <;> injection h with h <;> subst h <;> cases hr <;> rfl

/-- Of the BSP commands only BS.EXTRACT and BS.DUMP answer data (R87, R138). -/
theorem exec_data_eq_nil {i : Instr} {s t : State} {r : Response} (hi : fieldCommand i = false)
    (h : exec i s = .next t) (hr : t.response = some r) (hextract : i ≠ .bsExtract) (hdump : i ≠ .bsDump) :
    r.data = [] := by
  cases i with
  | bsCreate cap =>
    rw [exec_bsCreate_eq] at h
    split at h <;> injection h with h <;> subst h <;> cases hr <;> rfl
  | bsAppend | bsAppendA => exact append_data h hr
  | bsPad | bsFill | bsLen =>
    injection h with h
    subst h
    cases hr
    rfl
  | bsExtract => exact absurd rfl hextract
  | bsDump => exact absurd rfl hdump
  | gfAdd | gfSub | gfMul | gfDiv | gfPow => cases hi

/-- The row of BS.APPEND and BS.APPENDA (R138): the storage outside the group, the capacity, the cursor. -/
theorem append_row {v n : Nat} {s t : State} (h : append v n s = .next t) (hr : t.response = some .done) :
    (∀ k, k < 8 * t.bsp.len → (k < s.bsp.pos ∨ s.bsp.pos + n ≤ k) →
      t.bsp.mem.sbit k = if k < 8 * s.bsp.len then s.bsp.mem.sbit k else false) ∧
    (t.bsp.len ≠ s.bsp.len → s.bsp.len < s.bsp.need n) ∧ s.bsp.len ≤ t.bsp.len ∧
    t.bsp.byteCur = (s.bsp.pos + n) / 8 ∧ t.bsp.bitCur.val = (s.bsp.pos + n) % 8 := by
  have hlen := append_len_ne h
  obtain ⟨hfits, rfl⟩ := append_done h hr
  refine ⟨fun k hk hout => ?_, hlen, Bsp.len_le_grown_len _ _ _ hfits, Bsp.appended_byteCur _ _ _ _,
    Bsp.appended_bitCur_val _ _ _ _⟩
  split
  · next hold => exact Bsp.sbit_appended_old _ _ _ _ _ hold hout
  · next hnew => exact Bsp.sbit_appended_new _ _ _ _ _ (by omega) hk hout

/-- Settles O36: the table, one goal per row and, at the end, per column of response data. -/
theorem whichCommandsWriteWhichState : Obligations.WhichCommandsWriteWhichState := by
  intro s t
  refine ⟨fun cap h hr => ?create, fun v n h hr => ?append, fun h => ?pad, fun h => ?fill, exec_readsOnly_bsp rfl,
    exec_readsOnly_bsp rfl, exec_readsOnly_bsp rfl, fun i hi h r hr hextract hdump => ?noData, fun r h hr => ?extract,
    fun r h hr => ?len, fun r h hr => ?dump⟩
  case create =>
    obtain rfl := exec_bsCreate_done h hr
    exact ⟨fun i _ => Memory.get_nil i, rfl, rfl, rfl⟩
  case append =>
    obtain h | ⟨rfl, h⟩ := h
    · exact append_row h hr
    · exact append_row h hr
  case pad =>
    injection h with h
    subst h
    refine ⟨Bsp.padded_mem _, Bsp.padded_len _, ?_, Bsp.padded_bitCur _⟩
    simp only [State.withResponse_bsp, State.withBsp_bsp, Bsp.padded, ite_not]
    split <;> rfl
  case fill =>
    injection h with h
    subst h
    refine ⟨fun i hi => ?_, Bsp.padded_len _, Bsp.padded_len _, rfl⟩
    change i < ceil8 s.bsp.pos ∨ s.bsp.len ≤ i at hi
    exact (Bsp.get_filled _ _).trans (if_neg (by omega))
  case noData => exact exec_data_eq_nil hi h hr hextract hdump
  case extract =>
    obtain rfl := exec_bsExtract_next h
    cases hr
    rw [Memory.read_eq_map, Bsp.prefixLength_eq]
    rfl
  case len =>
    injection h with h
    subst h
    cases hr
    rfl
  case dump =>
    injection h with h
    subst h
    cases hr
    exact ⟨Memory.read_eq_map _ _, rfl⟩

end Sys2Proof.Machine
end

section
/-! What each command of the field unit answers, said once: the command's word, and the outcome of its execution as an
equation over the tables of the state (`41_field.md` R151 to R176). -/

namespace Sys2Proof

/-! ### Words of the commands -/

/-- The words of format G: the opcode names the command, the low bytes are its operands (R82, R84). -/
theorem decode_formatG {op : Nat} (hlo : 0x8 ≤ op) (hhi : op ≤ 0xB) (a b : Byte) :
    decode (BitVec.ofNat 80 (op * 2 ^ 76 + b.toNat * 2 ^ 8 + a.toNat)) =
      if op = 0x8 then .ok (.gfAdd a b) else if op = 0x9 then .ok (.gfSub a b)
      else if op = 0xA then .ok (.gfMul a b) else .ok (.gfDiv a b) := by
  have ha := a.isLt
  have hb := b.isLt
  generalize hw : op * 2 ^ 76 + b.toNat * 2 ^ 8 + a.toNat = w
  have hA : BitVec.ofNat 8 w = a := BitVec.eq_of_toNat_eq (by rw [BitVec.toNat_ofNat]; omega)
  have hB : BitVec.ofNat 8 (w / 2 ^ 8) = b := BitVec.eq_of_toNat_eq (by rw [BitVec.toNat_ofNat]; omega)
  have hrow (c : Nat) : w / 2 ^ 16 = c * 2 ^ 60 ↔ op = c := by omega
  rw [decode_eq, toNat_ofNat_of_lt (by omega), hA, hB]
  -- The eight rows before GF.ADD have smaller opcodes.
  iterate 8 rw [if_neg (by omega)]
  simp only [hrow]
  interval_cases op <;> simp

/-- The word of format P with `X = x` and `N = n` (R82). -/
theorem decode_formatP (x : Byte) {n : Nat} (hn : n < 2 ^ 32) :
    decode (BitVec.ofNat 80 (0xC * 2 ^ 76 + n * 2 ^ 8 + x.toNat)) = .ok (.gfPow x n) := by
  have hx := x.isLt
  generalize hw : 0xC * 2 ^ 76 + n * 2 ^ 8 + x.toNat = w
  have hX : BitVec.ofNat 8 w = x := BitVec.eq_of_toNat_eq (by rw [BitVec.toNat_ofNat]; omega)
  have hN : w / 2 ^ 8 % 2 ^ 32 = n := by omega
  have hrow : w / 2 ^ 40 = 0xC * 2 ^ 36 := by omega
  rw [decode_eq, toNat_ofNat_of_lt (by omega), hX, hN, if_pos hrow]
  iterate 12 rw [if_neg (by omega)]

end Sys2Proof

namespace Sys2Proof.Machine

/-! ### Outcomes -/

theorem exec_gfAdd (a b : Byte) (s : State) :
    exec (.gfAdd a b) s = .next (s.withResponse (.value (a ^^^ b).toNat)) := rfl

theorem exec_gfSub (a b : Byte) (s : State) :
    exec (.gfSub a b) s = .next (s.withResponse (.value (a ^^^ b).toNat)) := rfl

theorem exec_gfMul (a b : Byte) (s : State) :
    exec (.gfMul a b) s = .next (s.withResponse (.value (s.gfu.mul a b).toNat)) := rfl

theorem exec_gfDiv (a : Byte) {b : Byte} (hb : b ≠ 0#8) (s : State) :
    exec (.gfDiv a b) s = .next (s.withResponse (.value (s.gfu.div a b hb).toNat)) := dif_neg hb

/-- The divisor is tested first (R170). -/
theorem exec_gfDiv_zero (a : Byte) (s : State) :
    exec (.gfDiv a 0#8) s = .next (s.withResponse (.error .divisionByZero)) := rfl

theorem exec_gfPow {x : Byte} (hx : x ≠ 0#8) (n : Nat) (s : State) :
    exec (.gfPow x n) s = .next (s.withResponse (.value (s.gfu.pow x n hx).toNat)) := dif_neg hx

theorem exec_gfPow_zero (n : Nat) (s : State) : exec (.gfPow 0#8 n) s = .refused .powZeroBase := rfl

/-- The responses of the field unit: DivisionByZero, or the value of a byte (R151). -/
theorem exec_fieldCommand_next {i : Instr} {s t : State} (hi : fieldCommand i = true) (h : exec i s = .next t) :
    t = s.withResponse (.error .divisionByZero) ∨ ∃ v : Byte, t = s.withResponse (.value v.toNat) := by
  cases i with
  | gfAdd | gfSub | gfMul => injection h with h; exact .inr ⟨_, h.symm⟩
  | gfDiv a b =>
    by_cases hb : b = 0#8
    · subst hb; injection h with h; exact .inl h.symm
    · rw [exec_gfDiv a hb] at h; injection h with h; exact .inr ⟨_, h.symm⟩
  | gfPow x n =>
    by_cases hx : x = 0#8
    · subst hx; cases h
    · rw [exec_gfPow hx] at h; injection h with h; exact .inr ⟨_, h.symm⟩
  | bsCreate | bsAppend | bsAppendA | bsPad | bsFill | bsExtract | bsLen | bsDump => cases hi

/-! ### The results as table reads, whatever the tables hold -/

@[simp] theorem Gfu.zero_mul (g : Gfu) (b : Byte) : g.mul 0#8 b = 0#8 := rfl

@[simp] theorem Gfu.mul_zero (g : Gfu) (a : Byte) : g.mul a 0#8 = 0#8 := by
  unfold Gfu.mul
  split <;> rfl

theorem Gfu.mul_of_ne_zero (g : Gfu) {a b : Byte} (ha : a ≠ 0#8) (hb : b ≠ 0#8) :
    g.mul a b = g.expMod (g.logAt a ha + g.logAt b hb) := by
  rw [Gfu.mul, dif_neg ha, dif_neg hb]

@[simp] theorem Gfu.zero_div (g : Gfu) {b : Byte} (hb : b ≠ 0#8) : g.div 0#8 b hb = 0#8 := rfl

theorem Gfu.div_of_ne_zero (g : Gfu) {a b : Byte} (ha : a ≠ 0#8) (hb : b ≠ 0#8) :
    g.div a b hb = g.expMod (g.logAt a ha + 255 - g.logAt b hb) := dif_neg ha

/-! ### The statements -/

/-- Settles O40: the format G words, and the exclusive or of the bytes as numbers. -/
theorem addAndSubAreXor : Obligations.AddAndSubAreXor := by
  refine ⟨decode_formatG (by decide) (by decide), decode_formatG (by decide) (by decide), fun a b s => ?_,
    fun a b s => ?_⟩
  · rw [exec_gfAdd, BitVec.toNat_xor]
    rfl
  · rw [exec_gfSub, BitVec.toNat_xor]
    rfl

/-- Settles O41: the zero operands, and the product of the others as a table read. -/
theorem mulReadsTheTables : Obligations.MulReadsTheTables := by
  refine ⟨decode_formatG (by decide) (by decide), fun a b s h => ?_, fun a b s la lb v ha hb hla hlb hv => ?_⟩
  · rw [exec_gfMul]
    obtain rfl | rfl := h
    · rw [Gfu.zero_mul]; rfl
    · rw [Gfu.mul_zero]; rfl
  · rw [exec_gfMul, Gfu.mul_of_ne_zero _ ha hb, Gfu.logAt_of_getElem? _ a ha la hla,
      Gfu.logAt_of_getElem? _ b hb lb hlb, Gfu.expMod_of_getElem? _ _ v hv]
    rfl

/-- Settles O42: the zero divisor, the zero dividend, and the quotient of the others as a table read; the index over the
integers is the model's over the naturals. -/
theorem divReadsTheTables : Obligations.DivReadsTheTables := by
  refine ⟨decode_formatG (by decide) (by decide), exec_gfDiv_zero, fun b s hb => exec_gfDiv 0#8 hb s,
    fun a b s la lb v ha hb hla hlb hv => ?_⟩
  have hindex : (((la.val : Int) - lb.val + 255) % 255).toNat = (la.val + 255 - lb.val) % 255 := by omega
  rw [hindex] at hv
  rw [exec_gfDiv a hb, Gfu.div_of_ne_zero _ ha hb, Gfu.logAt_of_getElem? _ a ha la hla,
    Gfu.logAt_of_getElem? _ b hb lb hlb, Gfu.expMod_of_getElem? _ _ v hv]
  rfl

/-- Settles O43: the format P word, and the power as a table read. -/
theorem powReadsTheTables : Obligations.PowReadsTheTables := by
  refine ⟨fun x n hn => decode_formatP x hn, fun x n s lx v hx hlx hv => ?_, fun x n s hx => ⟨_, exec_gfPow hx n s⟩⟩
  rw [exec_gfPow hx, Gfu.pow, Gfu.logAt_of_getElem? _ x hx lx hlx, Gfu.expMod_of_getElem? _ _ v hv]
  rfl

/-- Settles O44: base 0 is refused, every other base answers a next state. -/
theorem powOfBaseZeroIsRefused : Obligations.PowOfBaseZeroIsRefused := by
  intro x n s
  constructor
  · intro h
    by_contra hx
    rw [exec_gfPow hx] at h
    cases h
  · rintro rfl
    exact exec_gfPow_zero n s

/-- Settles O50: a response of the field unit is DivisionByZero, with value 0, or the value of a byte. -/
theorem fieldResultsAreBytes : Obligations.FieldResultsAreBytes := by
  intro i s t r hi h hr
  obtain rfl | ⟨v, rfl⟩ := exec_fieldCommand_next hi h
  · cases hr
    exact Nat.zero_le 255
  · cases hr
    exact Nat.le_of_lt_succ v.isLt

end Sys2Proof.Machine
end

section
/-! The field of 256 elements in the tables reset builds (`41_field.md` R167, R171, R175). Every element other than 0 is
some number of doublings of 1, and the field unit computes with these numbers modulo 255: a product adds them, a power
multiplies them. Doubling is linear, so the multiplication distributes over the exclusive or. -/

namespace Sys2Proof.Machine

/-! ### Elements as numbers of doublings -/

/-- The element depends on the number of doublings modulo 255. -/
theorem Tables.doubled_congr {m n : Nat} (h : m ≡ n [MOD 255]) : Tables.doubled m = Tables.doubled n := by
  rw [Tables.doubled_mod m, Tables.doubled_mod n, h]

/-- The logarithm tells the numbers of doublings apart. -/
theorem Tables.doubled_eq_iff (m n : Nat) : Tables.doubled m = Tables.doubled n ↔ m ≡ n [MOD 255] := by
  refine ⟨fun h => ?_, Tables.doubled_congr⟩
  have hlog := Gfu.logAt_reset m (Tables.doubled_ne_zero m)
  simp only [h, Gfu.logAt_reset] at hlog
  exact hlog.symm

theorem Tables.eq_doubled_of_ne_zero {x : Byte} (hx : x ≠ 0#8) : ∃ n, x = Tables.doubled n := by
  obtain ⟨i, hi⟩ := Tables.exists_doubled_eq x hx
  exact ⟨i, hi.symm⟩

theorem Tables.eq_zero_or_doubled (x : Byte) : x = 0#8 ∨ ∃ n, x = Tables.doubled n :=
  or_iff_not_imp_left.2 Tables.eq_doubled_of_ne_zero

/-- A product adds the numbers of doublings. -/
theorem Gfu.mul_doubled (m n : Nat) :
    Gfu.reset.mul (Tables.doubled m) (Tables.doubled n) = Tables.doubled (m + n) := by
  rw [Gfu.mul_of_ne_zero _ (Tables.doubled_ne_zero m) (Tables.doubled_ne_zero n), Gfu.expMod_reset, Gfu.logAt_reset,
    Gfu.logAt_reset]
  exact Tables.doubled_congr ((Nat.mod_modEq m 255).add (Nat.mod_modEq n 255))

/-- A quotient subtracts the number of doublings of the divisor. -/
theorem Gfu.div_doubled (m n : Nat) (h : Tables.doubled n ≠ 0#8) :
    Gfu.reset.div (Tables.doubled (m + n)) (Tables.doubled n) h = Tables.doubled m := by
  rw [Gfu.div_of_ne_zero _ (Tables.doubled_ne_zero (m + n)), Gfu.expMod_reset, Gfu.logAt_reset, Gfu.logAt_reset]
  apply Tables.doubled_congr
  unfold Nat.ModEq
  omega

/-- A power multiplies the number of doublings. -/
theorem Gfu.pow_doubled (k n : Nat) (h : Tables.doubled k ≠ 0#8) :
    Gfu.reset.pow (Tables.doubled k) n h = Tables.doubled (k * n) := by
  rw [Gfu.pow, Gfu.expMod_reset, Gfu.logAt_reset]
  exact Tables.doubled_congr ((Nat.mod_modEq k 255).mul_right n)

/-- So does repeated multiplication (R175 (g)). -/
theorem Gfu.repeatedMul_doubled (k n : Nat) :
    Gfu.reset.repeatedMul (Tables.doubled k) n = Tables.doubled (k * n) := by
  induction n with
  | zero => rfl
  | succ n ih => rw [Gfu.repeatedMul, ih, Gfu.mul_doubled, Nat.mul_succ]

/-! ### Doubling as reduction of a shifted polynomial -/

/-- Shifting polynomials is linear. -/
theorem xor_mul_two_pow (a b i : Nat) : (a ^^^ b) * 2 ^ i = a * 2 ^ i ^^^ b * 2 ^ i := by
  simp only [← Nat.shiftLeft_eq, Nat.shiftLeft_xor_distrib]

/-- The reduction (R168 (b)) is linear. -/
theorem reducePoly_xor (r s n : Nat) : reducePoly (r ^^^ s) n = reducePoly r n ^^^ reducePoly s n := by
  induction n generalizing r s with
  | zero => rfl
  | succ n ih =>
    have hbit : bit (r ^^^ s) (n + 8) = (bit r (n + 8) ^^ bit s (n + 8)) := by
      simp only [bit_eq_testBit, Nat.testBit_xor]
    rw [reducePoly, reducePoly, reducePoly, ← ih, hbit]
    congr 1
    generalize Config.poly * 2 ^ n = p
    cases bit r (n + 8) <;> cases bit s (n + 8) <;>
      simp [Nat.xor_comm, Nat.xor_left_comm]

/-- The first step of the reduction of a byte shifted by `i + 1` is one doubling of the byte. -/
theorem reducePoly_shift_succ (v : Byte) (i : Nat) :
    reducePoly (v.toNat * 2 ^ (i + 1)) (i + 1) = reducePoly ((Tables.double v).toNat * 2 ^ i) i := by
  have hv := v.isLt
  have hshift : v.toNat * 2 ^ (i + 1) = 2 * v.toNat * 2 ^ i := by rw [Nat.pow_succ]; ring
  have hbit : bit (2 * v.toNat * 2 ^ i) (i + 8) = true ↔ 256 ≤ 2 * v.toNat := by
    rw [bit_eq_true_iff, Nat.pow_add, Nat.mul_comm (2 ^ i), Nat.mul_div_mul_right _ _ (Nat.two_pow_pos i)]
    omega
  rw [hshift, reducePoly, Tables.double_toNat, polyMul_two]
  simp only [hbit]
  split
  · rw [xor_mul_two_pow]
  · rfl

/-- Doubling a byte `i` times is multiplication by the polynomial `x^i` modulo `POLY`. -/
theorem Tables.iterate_double_toNat (i : Nat) (v : Byte) :
    (Tables.double^[i] v).toNat = reducePoly (v.toNat * 2 ^ i) i := by
  induction i generalizing v with
  | zero => rw [Nat.pow_zero, Nat.mul_one]; rfl
  | succ i ih => rw [Function.iterate_succ_apply, ih, reducePoly_shift_succ]

/-- Doubling is linear. -/
theorem Tables.iterate_double_xor (i : Nat) (v w : Byte) :
    Tables.double^[i] (v ^^^ w) = Tables.double^[i] v ^^^ Tables.double^[i] w := by
  apply BitVec.eq_of_toNat_eq
  simp only [BitVec.toNat_xor, Tables.iterate_double_toNat, xor_mul_two_pow, reducePoly_xor]

theorem Tables.iterate_double_doubled (m n : Nat) : Tables.double^[m] (Tables.doubled n) = Tables.doubled (m + n) := by
  induction m with
  | zero => rw [Nat.zero_add]; rfl
  | succ m ih => rw [Function.iterate_succ_apply', ih, Nat.add_right_comm]; rfl

/-- Multiplication by the element after `m` doublings is `m` doublings. -/
theorem Gfu.mul_doubled_left (m : Nat) (b : Byte) :
    Gfu.reset.mul (Tables.doubled m) b = Tables.double^[m] b := by
  obtain rfl | ⟨n, rfl⟩ := Tables.eq_zero_or_doubled b
  · have hfix : Tables.double 0#8 = 0#8 := rfl
    rw [Gfu.mul_zero, Function.iterate_fixed hfix]
  · rw [Gfu.mul_doubled, Tables.iterate_double_doubled]

/-! ### Laws of the multiplication -/

/-- The multiplication is commutative, whatever the tables hold. -/
theorem Gfu.mul_comm (g : Gfu) (a b : Byte) : g.mul a b = g.mul b a := by
  by_cases ha : a = 0#8
  · rw [ha, Gfu.zero_mul, Gfu.mul_zero]
  by_cases hb : b = 0#8
  · rw [hb, Gfu.zero_mul, Gfu.mul_zero]
  rw [Gfu.mul_of_ne_zero g ha hb, Gfu.mul_of_ne_zero g hb ha, Nat.add_comm]

theorem Gfu.mul_assoc_reset (a b c : Byte) :
    Gfu.reset.mul (Gfu.reset.mul a b) c = Gfu.reset.mul a (Gfu.reset.mul b c) := by
  obtain rfl | ⟨k, rfl⟩ := Tables.eq_zero_or_doubled a
  · simp only [Gfu.zero_mul]
  obtain rfl | ⟨m, rfl⟩ := Tables.eq_zero_or_doubled b
  · simp only [Gfu.zero_mul, Gfu.mul_zero]
  obtain rfl | ⟨n, rfl⟩ := Tables.eq_zero_or_doubled c
  · simp only [Gfu.mul_zero]
  simp only [Gfu.mul_doubled, Nat.add_assoc]

theorem Gfu.mul_xor_reset (a b c : Byte) :
    Gfu.reset.mul a (b ^^^ c) = Gfu.reset.mul a b ^^^ Gfu.reset.mul a c := by
  obtain rfl | ⟨k, rfl⟩ := Tables.eq_zero_or_doubled a
  · simp only [Gfu.zero_mul, BitVec.xor_self]
  · simp only [Gfu.mul_doubled_left, Tables.iterate_double_xor]

theorem Gfu.one_mul_reset (a : Byte) : Gfu.reset.mul 1#8 a = a := Gfu.mul_doubled_left 0 a

theorem Gfu.mul_eq_zero_iff_reset (a b : Byte) : Gfu.reset.mul a b = 0#8 ↔ a = 0#8 ∨ b = 0#8 := by
  constructor
  · intro h
    by_contra! hne
    obtain ⟨m, rfl⟩ := Tables.eq_doubled_of_ne_zero hne.1
    obtain ⟨n, rfl⟩ := Tables.eq_doubled_of_ne_zero hne.2
    rw [Gfu.mul_doubled] at h
    exact Tables.doubled_ne_zero _ h
  · rintro (rfl | rfl)
    · exact Gfu.zero_mul _ b
    · exact Gfu.mul_zero _ a

/-! ### The quotient -/

theorem Gfu.mul_div_cancel_reset (a : Byte) {b : Byte} (hb : b ≠ 0#8) :
    Gfu.reset.div (Gfu.reset.mul a b) b hb = a := by
  obtain ⟨n, rfl⟩ := Tables.eq_doubled_of_ne_zero hb
  obtain rfl | ⟨m, rfl⟩ := Tables.eq_zero_or_doubled a
  · rfl
  · simp only [Gfu.mul_doubled, Gfu.div_doubled]

/-- Every element is a multiple of the divisor, by 254 times its number of doublings more. -/
theorem Gfu.exists_mul_eq_reset (a : Byte) {b : Byte} (hb : b ≠ 0#8) : ∃ c, Gfu.reset.mul c b = a := by
  obtain ⟨n, rfl⟩ := Tables.eq_doubled_of_ne_zero hb
  obtain rfl | ⟨m, rfl⟩ := Tables.eq_zero_or_doubled a
  · exact ⟨0#8, Gfu.zero_mul _ _⟩
  · refine ⟨Tables.doubled (m + 254 * n), ?_⟩
    rw [Gfu.mul_doubled]
    apply Tables.doubled_congr
    unfold Nat.ModEq
    omega

/-- The quotient is the one element whose product with the divisor is the dividend (R171). -/
theorem Gfu.div_eq_iff_reset {a b c : Byte} (hb : b ≠ 0#8) :
    Gfu.reset.div a b hb = c ↔ Gfu.reset.mul c b = a := by
  constructor
  · rintro rfl
    obtain ⟨c, rfl⟩ := Gfu.exists_mul_eq_reset a hb
    rw [Gfu.mul_div_cancel_reset c hb]
  · rintro rfl
    exact Gfu.mul_div_cancel_reset c hb

/-! ### The product of polynomials -/

/-- Multiplying by the monomial `x^n` is reducing the shifted polynomial, for a degree below 8. -/
theorem Gfu.mul_monomial_toNat (a : Byte) {n : Nat} (hn : n < 8) :
    (Gfu.reset.mul a (BitVec.ofNat 8 (2 ^ n))).toNat = reducePoly (a.toNat * 2 ^ n) 7 := by
  have hmonomial : ∀ i : Fin 8, BitVec.ofNat 8 (2 ^ i.val) = Tables.doubled i.val := by decide
  have hlt : a.toNat * 2 ^ n < 2 ^ (n + 8) := by
    rw [Nat.pow_add, Nat.mul_comm (2 ^ n)]
    exact Nat.mul_lt_mul_of_pos_right a.isLt (Nat.two_pow_pos n)
  rw [hmonomial ⟨n, hn⟩, Gfu.mul_comm, Gfu.mul_doubled_left, Tables.iterate_double_toNat,
    ← reducePoly_of_lt n (7 - n) hlt, Nat.add_sub_cancel' (by omega)]

/-- The low `n + 1` bits are the low `n` bits and, where bit `n` is set, `x^n`. -/
theorem mod_two_pow_succ_eq_xor (b n : Nat) :
    b % 2 ^ (n + 1) = if bit b n then b % 2 ^ n ^^^ 2 ^ n else b % 2 ^ n := by
  apply Nat.eq_of_testBit_eq
  intro i
  rw [bit_eq_testBit, Nat.testBit_mod_two_pow, apply_ite (Nat.testBit · i), Nat.testBit_xor, Nat.testBit_mod_two_pow,
    Nat.testBit_two_pow]
  obtain hlt | rfl | hgt := Nat.lt_trichotomy i n
  · simp [hlt, hlt.ne', Nat.lt_succ_of_lt hlt]
  · simp
  · simp [hgt.not_gt, hgt.ne, Nat.not_lt.2 (Nat.succ_le_of_lt hgt)]

/-- The multiplication by the low `n` bits of `b` is the reduced carry-less product by them (R168 (b)). -/
theorem Gfu.mul_low_toNat (a : Byte) (b : Nat) {n : Nat} (hn : n ≤ 8) :
    (Gfu.reset.mul a (BitVec.ofNat 8 (b % 2 ^ n))).toNat = reducePoly (carrylessProduct a.toNat b n) 7 := by
  induction n with
  | zero =>
    rw [Nat.pow_zero, Nat.mod_one, Gfu.mul_zero]
    exact (reducePoly_of_lt 0 7 (by decide)).symm
  | succ n ih =>
    rw [carrylessProduct, mod_two_pow_succ_eq_xor]
    split
    · rw [BitVec.ofNat_xor, Gfu.mul_xor_reset, BitVec.toNat_xor, ih (by omega), Gfu.mul_monomial_toNat a (by omega),
        reducePoly_xor]
    · exact ih (by omega)

/-- The product of the tables is the product of polynomials modulo `POLY`. -/
theorem Gfu.mul_reset_toNat (a b : Byte) : (Gfu.reset.mul a b).toNat = polyMul a b := by
  have hlow := Gfu.mul_low_toNat a b.toNat (le_refl 8)
  rwa [Nat.mod_eq_of_lt b.isLt, BitVec.ofNat_toNat, BitVec.setWidth_eq] at hlow

/-! ### The statements -/

/-- Settles O45: the index without the reduction reads the same element (R37), and the product is that of polynomials. -/
theorem mulIsPolynomialMultiplication : Obligations.MulIsPolynomialMultiplication := by
  intro s a b hbuilt
  have hreset : s.gfu = Gfu.reset := hbuilt
  rw [exec_gfMul, hreset]
  refine ⟨fun la lb v ha hb hla hlb hv => ?_, ?_⟩
  · rw [Gfu.exp_reset_getElem? _ (by omega)] at hv
    rw [Gfu.mul_of_ne_zero _ ha hb, Gfu.logAt_of_getElem? _ a ha la hla, Gfu.logAt_of_getElem? _ b hb lb hlb,
      Gfu.expMod_reset]
    exact Option.some.inj hv
  · rw [Gfu.mul_reset_toNat]
    rfl

/-- Settles O46: the laws by numbers of doublings, the distributive law by the linearity of doubling. -/
theorem mulIsFieldMultiplication : Obligations.MulIsFieldMultiplication := by
  rintro _ rfl
  refine ⟨?outcome, Gfu.mul_comm _, Gfu.mul_assoc_reset, Gfu.mul_xor_reset, ?one, Gfu.mul_eq_zero_iff_reset, ?cycle,
    ?shorter, by decide +kernel, by decide +kernel⟩
  case outcome =>
    intro a b s hs
    rw [exec_gfMul, hs]
  case one =>
    intro a
    rw [Gfu.mul_comm, Gfu.one_mul_reset]
  case cycle => exact (Gfu.repeatedMul_doubled 1 255).trans Tables.doubled_255
  case shorter =>
    intro n hpos hlt h
    rw [show (2#8 : Byte) = Tables.doubled 1 from rfl, Gfu.repeatedMul_doubled, Nat.one_mul] at h
    have hmod : n % 255 = 0 := (Tables.doubled_eq_iff n 0).1 h
    omega

/-- Settles O47: the quotient is the element whose product with the divisor is the dividend. -/
theorem divInvertsMul : Obligations.DivInvertsMul := by
  rintro _ rfl
  have hcancel (a b : Byte) (hb : b ≠ 0#8) : Gfu.reset.mul (Gfu.reset.div a b hb) b = a :=
    (Gfu.div_eq_iff_reset hb).1 rfl
  refine ⟨exec_gfDiv_zero 0#8, ?outcome, fun b hb => Gfu.zero_div _ hb, ?self, ?one, hcancel,
    fun a b hb => Gfu.mul_div_cancel_reset a hb, ?inverse, ?examples⟩
  case outcome =>
    intro a b hb s hs
    simp only [exec_gfDiv a hb, hs]
  case self => exact fun a ha => (Gfu.div_eq_iff_reset ha).2 (Gfu.one_mul_reset a)
  case one =>
    intro a
    rw [Gfu.div_eq_iff_reset, Gfu.mul_comm, Gfu.one_mul_reset]
  case inverse =>
    intro a ha
    rw [Gfu.mul_comm, hcancel]
  case examples => decide +kernel

/-- Settles O48: the laws by the number of doublings of the base, which the exponent multiplies. -/
theorem powIsRepeatedMultiplication : Obligations.PowIsRepeatedMultiplication := by
  rintro _ rfl
  have hzero (x : Byte) (hx : x ≠ 0#8) : Gfu.reset.pow x 0 hx = 1#8 := by
    obtain ⟨k, rfl⟩ := Tables.eq_doubled_of_ne_zero hx
    exact Gfu.pow_doubled k 0 hx
  have hperiod (x : Byte) (n : Nat) (hx : x ≠ 0#8) : Gfu.reset.pow x n hx = Gfu.reset.pow x (n % 255) hx := by
    obtain ⟨k, rfl⟩ := Tables.eq_doubled_of_ne_zero hx
    rw [Gfu.pow_doubled, Gfu.pow_doubled]
    exact Tables.doubled_congr ((Nat.mod_modEq n 255).symm.mul_left k)
  refine ⟨?outcome, hzero, ?one, ?base, hperiod, fun x hx => (hperiod x 255 hx).trans (hzero x hx), ?repeated,
    ?examples⟩
  case outcome =>
    intro x n hx s hs
    simp only [exec_gfPow hx, hs]
  case one =>
    intro x hx
    obtain ⟨k, rfl⟩ := Tables.eq_doubled_of_ne_zero hx
    rw [Gfu.pow_doubled, Nat.mul_one]
  case base =>
    intro n
    exact (Gfu.pow_doubled 0 n _).trans (congrArg Tables.doubled (Nat.zero_mul n))
  case repeated =>
    intro x n hx
    obtain ⟨k, rfl⟩ := Tables.eq_doubled_of_ne_zero hx
    rw [Gfu.pow_doubled, Gfu.repeatedMul_doubled]
  case examples => decide +kernel

end Sys2Proof.Machine
end

section
/-! CCI.WIDTH (`42_host_sequences.md` R196): the width per range of versions, and the function's three outcomes in the
order of its tests. -/

namespace Sys2Proof.HostSeq

/-! ### The widths -/

theorem cciBits_of_le_nine {version : Int} (h : version ≤ 9) : cciBits version = 9 := if_pos h

theorem cciBits_of_ten_le_of_le_twentySix {version : Int} (hlo : 10 ≤ version) (hhi : version ≤ 26) :
    cciBits version = 11 := by
  rw [cciBits, if_neg (by omega), if_pos hhi]

theorem cciBits_of_twentySeven_le {version : Int} (h : 27 ≤ version) : cciBits version = 13 := by
  rw [cciBits, if_neg (by omega), if_neg (by omega)]

/-! ### The outcomes -/

/-- The version is tested first: the mode does not matter. -/
theorem cciWidth_of_version_out_of_range {version : Int} (mode : Mode) (h : version < 1 ∨ 40 < version) :
    cciWidth version mode = .error .unsupportedVersion := if_pos h

theorem cciWidth_of_mode_ne {version : Int} {mode : Mode} (hlo : 1 ≤ version) (hhi : version ≤ 40)
    (hmode : mode ≠ .alphanumeric) : cciWidth version mode = .error .unsupportedMode := by
  rw [cciWidth, if_neg (by omega), if_pos hmode]

theorem cciWidth_alphanumeric {version : Int} (hlo : 1 ≤ version) (hhi : version ≤ 40) :
    cciWidth version .alphanumeric = .ok (cciBits version) := by
  rw [cciWidth, if_neg (by omega), if_neg (not_not_intro rfl)]

/-- Settles O53: the two failures in the order of the tests, then the width of each range of versions. -/
theorem characterCountWidth : Obligations.CharacterCountWidth := by
  refine ⟨fun _ mode h => cciWidth_of_version_out_of_range mode h, fun _ _ hlo hhi h => cciWidth_of_mode_ne hlo hhi h,
    fun version hlo hhi => ?small, fun version hlo hhi => ?medium, fun version hlo hhi => ?large⟩
  case small => rw [cciWidth_alphanumeric hlo (by omega), cciBits_of_le_nine hhi]
  case medium => rw [cciWidth_alphanumeric (by omega) (by omega), cciBits_of_ten_le_of_le_twentySix hlo hhi]
  case large => rw [cciWidth_alphanumeric (by omega) hhi, cciBits_of_twentySeven_le hlo]

end Sys2Proof.HostSeq
end

section
/-! The errors of the block (`60_exceptions.md` R221 to R228): when a command raises one, said once as a relation, and
that a command raises the error and changes nothing else, or answers OK. -/

namespace Sys2Proof.Machine

/-! ### When a command raises an error -/

/-- In state `s` the command raises the error: the tests made before a command's first write (R222, R228). -/
inductive Raises (s : State) : Instr → Status → Prop where
  /-- the new storage would exceed `BUF_MAX` (R112) -/
  | bsCreate {cap : Nat} (h : s.params.exceeds cap = true) : Raises s (.bsCreate cap) .capacityExceeded
  /-- the group would end beyond `BUF_MAX` (R116) -/
  | bsAppend {v n : Nat} (h : s.params.exceeds (s.bsp.need n) = true) : Raises s (.bsAppend v n) .capacityExceeded
  /-- the group of minimal width would end beyond `BUF_MAX` (R116, R120) -/
  | bsAppendA {v : Nat} (h : s.params.exceeds (s.bsp.need (bitlen v)) = true) :
      Raises s (.bsAppendA v) .capacityExceeded
  /-- the divisor is 0, whatever the dividend is (R170) -/
  | gfDiv (a : Byte) : Raises s (.gfDiv a 0#8) .divisionByZero

/-- An append beyond `BUF_MAX` raises CapacityExceeded (R116). -/
theorem append_of_exceeds (v : Nat) {n : Nat} {s : State} (h : s.params.exceeds (s.bsp.need n) = true) :
    append v n s = .next (s.withResponse (.error .capacityExceeded)) := by
  rw [append_eq, if_pos h]

/-- BS.CREATE within `BUF_MAX` completes (R112). -/
theorem exec_bsCreate_of_fits {cap : Nat} {s : State} (h : s.params.exceeds cap = false) :
    exec (.bsCreate cap) s = .next ((s.withBsp (Bsp.created cap)).withResponse .done) := by
  rw [exec_bsCreate_eq, h]
  rfl

/-- A command that raises an error emits the error's response and changes nothing else (R224). -/
theorem Raises.exec_eq {i : Instr} {s : State} {e : Status} (h : Raises s i e) :
    exec i s = .next (s.withResponse (.error e)) := by
  cases h with
  | bsCreate h => rw [exec_bsCreate_eq, if_pos h]
  | bsAppend h => exact append_of_exceeds _ h
  | bsAppendA h => exact append_of_exceeds _ h
  | gfDiv a => exact exec_gfDiv_zero a s

/-- A command whose outcome is known to carry an OK response answers OK. -/
theorem ok_of_exec_eq {i : Instr} {s t u : State} {r : Response} (h : exec i s = .next t)
    (heq : exec i s = .next (u.withResponse r)) (hok : r.status = .ok) :
    ∃ q, t.response = some q ∧ q.status = .ok := by
  rw [heq] at h
  injection h with h
  exact ⟨r, h ▸ State.withResponse_response u r, hok⟩

/-- A command that answers raises an error or answers OK. -/
theorem exec_raises_or_ok {i : Instr} {s t : State} (h : exec i s = .next t) :
    (∃ e, Raises s i e) ∨ ∃ r, t.response = some r ∧ r.status = .ok := by
  cases i with
  | bsCreate cap =>
    cases hx : s.params.exceeds cap with
    | true => exact .inl ⟨_, .bsCreate hx⟩
    | false => exact .inr (ok_of_exec_eq h (exec_bsCreate_of_fits hx) rfl)
  | bsAppend v n =>
    cases hx : s.params.exceeds (s.bsp.need n) with
    | true => exact .inl ⟨_, .bsAppend hx⟩
    | false => exact .inr (ok_of_exec_eq h (append_of_fits hx) rfl)
  | bsAppendA v =>
    cases hx : s.params.exceeds (s.bsp.need (bitlen v)) with
    | true => exact .inl ⟨_, .bsAppendA hx⟩
    | false => exact .inr (ok_of_exec_eq h (append_of_fits hx) rfl)
  | bsExtract =>
    rw [exec_bsExtract_next h]
    exact .inr ⟨_, rfl, rfl⟩
  | gfDiv a b =>
    by_cases hb : b = 0#8
    · subst hb
      exact .inl ⟨_, .gfDiv a⟩
    · exact .inr (ok_of_exec_eq h (exec_gfDiv a hb s) rfl)
  | gfPow x n =>
    by_cases hx : x = 0#8
    · rw [hx, exec_gfPow_zero] at h
      cases h
    · exact .inr (ok_of_exec_eq h (exec_gfPow hx n s) rfl)
  | bsPad | bsFill | bsLen | bsDump | gfAdd | gfSub | gfMul => exact .inr (ok_of_exec_eq h rfl rfl)

/-- A response of a command whose status is not OK is that of the error the command raises. -/
theorem exec_not_ok {i : Instr} {s t : State} {r : Response} (h : exec i s = .next t) (hr : t.response = some r)
    (hne : r.status ≠ .ok) : ∃ e, Raises s i e ∧ r = .error e ∧ t = s.withResponse (.error e) := by
  obtain ⟨e, he⟩ | ⟨q, hq, hok⟩ := exec_raises_or_ok h
  · rw [he.exec_eq] at h
    injection h with h
    subst h
    exact ⟨e, he, (Option.some.inj hr).symm, rfl⟩
  · rw [hr] at hq
    exact absurd (Option.some.inj hq ▸ hok) hne

/-- A command raises exactly the errors it answers. -/
theorem raises_iff_exec_eq {i : Instr} {s : State} {e : Status} (he : e ≠ .ok) :
    Raises s i e ↔ exec i s = .next (s.withResponse (.error e)) := by
  refine ⟨Raises.exec_eq, fun h => ?_⟩
  obtain ⟨e', he', hr, -⟩ := exec_not_ok h (State.withResponse_response _ _) he
  have heq : e = e' := congrArg Response.status hr
  exact heq ▸ he'

/-! ### Raising CapacityExceeded -/

theorem Params.exceeds_iff_of_bufMax {p : Params} {m : Nat} (h : p.bufMax = some m) (n : Nat) :
    p.exceeds n = true ↔ m < n := by
  simp [Params.exceeds_eq_true_iff, h]

theorem raises_bsCreate_iff {s : State} (cap : Nat) :
    Raises s (.bsCreate cap) .capacityExceeded ↔ s.params.exceeds cap = true :=
  ⟨fun | .bsCreate h => h, .bsCreate⟩

theorem raises_bsAppend_iff {s : State} (v n : Nat) :
    Raises s (.bsAppend v n) .capacityExceeded ↔ s.params.exceeds (s.bsp.need n) = true :=
  ⟨fun | .bsAppend h => h, .bsAppend⟩

theorem raises_bsAppendA_iff {s : State} (v : Nat) :
    Raises s (.bsAppendA v) .capacityExceeded ↔ s.params.exceeds (s.bsp.need (bitlen v)) = true :=
  ⟨fun | .bsAppendA h => h, .bsAppendA⟩

/-- CapacityExceeded is raised only for a storage length beyond `BUF_MAX` (R228). -/
theorem Raises.exists_exceeds {i : Instr} {s : State} (h : Raises s i .capacityExceeded) :
    ∃ n, s.params.exceeds n = true := by
  cases h with
  | bsCreate h => exact ⟨_, h⟩
  | bsAppend h => exact ⟨_, h⟩
  | bsAppendA h => exact ⟨_, h⟩

/-! ### Steps -/

/-- A step on a word that decodes to a command takes the word and executes the command (R85). -/
theorem step_of_decode_ok {s : State} {cw : CommandWord} {rest : List CommandWord} {i : Instr}
    (hc : s.commands = cw :: rest) (hd : decode cw = .ok i) : step s = exec i (s.withCommands rest) := by
  simp only [step, hc, execWord, hd]

/-! ### The statements -/

/-- Settles O10: the error is IllegalCommand, raised by the word, or one its command raises. -/
theorem errorResponsesChangeNothing : Obligations.ErrorResponsesChangeNothing := by
  intro s t cw rest r hc h hr hne
  have herror : ∃ e, r = .error e ∧ t = (s.withCommands rest).withResponse (.error e) := by
    cases hd : decode cw with
    | ok i =>
      rw [step_of_decode_ok hc hd] at h
      obtain ⟨e, -, hre, ht⟩ := exec_not_ok h hr hne
      exact ⟨e, hre, ht⟩
    | error x =>
      rw [step_of_decode_error hc hd] at h
      injection h with h
      subst h
      exact ⟨_, (Option.some.inj hr).symm, rfl⟩
  obtain ⟨e, rfl, rfl⟩ := herror
  exact ⟨rfl, rfl, rfl, rfl⟩

/-- Settles O12: of the errors commands raise, DivisionByZero is that of the zero divisor alone. -/
theorem divisionByZeroExactlyForAZeroDivisor : Obligations.DivisionByZeroExactlyForAZeroDivisor := by
  refine ⟨exec_gfDiv_zero, fun i s t r h hr hstatus => ?_, by decide⟩
  obtain ⟨e, he, rfl, -⟩ := exec_not_ok h hr (by rw [hstatus]; decide)
  obtain rfl : e = .divisionByZero := hstatus
  cases he with
  | gfDiv a => exact ⟨a, rfl⟩

/-- Settles O13: each command raises CapacityExceeded where the length it needs exceeds the bound, if there is one. -/
theorem capacityExceededExactlyBeyondTheBound : Obligations.CapacityExceededExactlyBeyondTheBound := by
  have hne : Status.capacityExceeded ≠ .ok := by decide
  refine ⟨fun s m hm => ⟨fun cap => ?create, fun v n => ?append, fun v => ?appendA⟩,
    fun i s t r hinf h hr hstatus => ?infinite, by decide⟩
  case create => rw [← raises_iff_exec_eq hne, raises_bsCreate_iff, Params.exceeds_iff_of_bufMax hm]
  case append =>
    rw [← raises_iff_exec_eq hne, raises_bsAppend_iff, Params.exceeds_iff_of_bufMax hm]
    rfl
  case appendA =>
    rw [← raises_iff_exec_eq hne, raises_bsAppendA_iff, Params.exceeds_iff_of_bufMax hm]
    rfl
  case infinite =>
    obtain ⟨e, he, rfl, -⟩ := exec_not_ok h hr (by rw [hstatus]; exact hne)
    obtain rfl : e = .capacityExceeded := hstatus
    obtain ⟨n, hn⟩ := he.exists_exceeds
    obtain ⟨m, hm, -⟩ := (Params.exceeds_eq_true_iff _ n).1 hn
    rw [hinf] at hm
    cases hm

end Sys2Proof.Machine
end

section
/-! The encoder and the decoder are inverse to each other (`30_encoding.md` R81 to R85, R91): a well-formed command is
what its word decodes to, a word that decodes is the word of its command, and no word selects two rows. -/

namespace Sys2Proof

/-! ### Decoding the word of a command -/

/-- The word of format A with `LENGTH = length` and `VALUE = value` (R118). -/
theorem decode_formatA {value length : Nat} (hv : value < 2 ^ 64) (hl : length < 2 ^ 8) :
    decode (BitVec.ofNat 80 (0x2 * 2 ^ 76 + length * 2 ^ 64 + value)) = .ok (.bsAppend value length) := by
  have hrow : (0x2 * 2 ^ 76 + length * 2 ^ 64 + value) / 2 ^ 72 = 0x20 := by omega
  have hvalue : (0x2 * 2 ^ 76 + length * 2 ^ 64 + value) % 2 ^ 64 = value := by omega
  have hlength : (0x2 * 2 ^ 76 + length * 2 ^ 64 + value) / 2 ^ 64 % 2 ^ 8 = length := by omega
  rw [decode_eq, toNat_ofNat_of_lt (by omega), if_neg (by omega), if_pos hrow, hvalue, hlength]

/-- Settles O1: the word of a command is the number of its layout, and each format's word decodes to its command. -/
theorem decodeOfEncodeIsTheInstruction : Obligations.DecodeOfEncodeIsTheInstruction := by
  intro i hi
  have hword : encode i = BitVec.ofNat 80 (encode i).toNat := by
    rw [BitVec.ofNat_toNat, BitVec.setWidth_eq]
  rw [hword, commandWordLayout.1 i hi]
  cases i with
  | bsCreate cap => exact decode_formatC (of_decide_eq_true hi)
  | bsAppend value length =>
    obtain ⟨hvalue, hlength⟩ := Bool.and_eq_true_iff.1 hi
    exact decode_formatA (of_decide_eq_true hvalue) (of_decide_eq_true hlength)
  | bsAppendA value => exact decode_formatAA (of_decide_eq_true hi)
  | bsPad | bsFill | bsExtract | bsLen | bsDump => decide
  | gfAdd a b | gfSub a b | gfMul a b | gfDiv a b => exact decode_formatG (by decide) (by decide) a b
  | gfPow x n => exact decode_formatP x (of_decide_eq_true hi)

/-! ### The word of a decoded command -/

/-- The command is well formed and the word is its own. -/
def IsWordOf (cw : CommandWord) (i : Instr) : Prop := i.wellFormed = true ∧ encode i = cw

/-- A word with the number of a well-formed command's layout is the command's word (R91). -/
theorem isWordOf_of_toNat {cw : CommandWord} {i : Instr} (hi : i.wellFormed = true)
    (h : (encode i).toNat = cw.toNat) : IsWordOf cw i := ⟨hi, BitVec.eq_of_toNat_eq h⟩

/-- What holds of a met test's command, and of what the tests after it answer, holds of what the chain answers. -/
theorem of_ite_ok_eq_ok {P : Instr → Prop} {p : Prop} [Decidable p] {i j : Instr} {x : Except IllegalWord Instr}
    (hrow : p → P j) (hrest : x = .ok i → P i) (h : (if p then .ok j else x) = .ok i) : P i := by
  split at h
  · next hp => injection h with h; exact h ▸ hrow hp
  · exact hrest h

/-- A word that decodes is the word of its command (R82 to R85). -/
theorem isWordOf_of_decode {cw : CommandWord} {i : Instr} (h : decode cw = .ok i) : IsWordOf cw i := by
  have hcw := cw.isLt
  rw [decode_eq] at h
  revert h
  refine of_ite_ok_eq_ok (fun hrow => ?create) <| of_ite_ok_eq_ok (fun hrow => ?append) <|
    of_ite_ok_eq_ok (fun hrow => ?appendA) <| of_ite_ok_eq_ok (fun hrow => ?pad) <|
    of_ite_ok_eq_ok (fun hrow => ?fill) <| of_ite_ok_eq_ok (fun hrow => ?extract) <|
    of_ite_ok_eq_ok (fun hrow => ?len) <| of_ite_ok_eq_ok (fun hrow => ?dump) <|
    of_ite_ok_eq_ok (fun hrow => ?add) <| of_ite_ok_eq_ok (fun hrow => ?sub) <|
    of_ite_ok_eq_ok (fun hrow => ?mul) <| of_ite_ok_eq_ok (fun hrow => ?div) <|
    of_ite_ok_eq_ok (fun hrow => ?pow) fun h => by cases h
  case create =>
    have hi : (Instr.bsCreate (cw.toNat % 2 ^ 32)).wellFormed = true := decide_eq_true (Nat.mod_lt _ (by decide))
    exact isWordOf_of_toNat hi ((commandWordLayout.1 _ hi).trans (by simp only; omega))
  case append =>
    have hi : (Instr.bsAppend (cw.toNat % 2 ^ 64) (cw.toNat / 2 ^ 64 % 2 ^ 8)).wellFormed = true :=
      Bool.and_eq_true_iff.2 ⟨decide_eq_true (Nat.mod_lt _ (by decide)), decide_eq_true (Nat.mod_lt _ (by decide))⟩
    exact isWordOf_of_toNat hi ((commandWordLayout.1 _ hi).trans (by simp only; omega))
  case appendA =>
    have hi : (Instr.bsAppendA (cw.toNat % 2 ^ 64)).wellFormed = true := decide_eq_true (Nat.mod_lt _ (by decide))
    exact isWordOf_of_toNat hi ((commandWordLayout.1 _ hi).trans (by simp only; omega))
  case pow =>
    have hi : (Instr.gfPow (BitVec.ofNat 8 cw.toNat) (cw.toNat / 2 ^ 8 % 2 ^ 32)).wellFormed = true :=
      decide_eq_true (Nat.mod_lt _ (by decide))
    exact isWordOf_of_toNat hi ((commandWordLayout.1 _ hi).trans (by simp only [BitVec.toNat_ofNat]; omega))
  case pad | fill | extract | len | dump => exact isWordOf_of_toNat rfl ((commandWordLayout.1 _ rfl).trans hrow.symm)
  case add | sub | mul | div =>
    exact isWordOf_of_toNat rfl ((commandWordLayout.1 _ rfl).trans (by simp only [BitVec.toNat_ofNat]; omega))

/-- Settles O2: each row of the decoder read back, the operands by the fields they came from. -/
theorem encodeOfDecodeIsTheWord : Obligations.EncodeOfDecodeIsTheWord := fun _ _ => isWordOf_of_decode

/-! ### The rows -/

/-- Two different rows fix some bit that both look at differently (R84). -/
theorem opRows_disjoint : ∀ j k : Fin opRows.length,
    opRows[j].pattern &&& opRows[k].mask = opRows[k].pattern &&& opRows[j].mask → j = k := by decide

/-- Settles O3: a word that selects both rows has the patterns of both where both masks look. -/
theorem atMostOneRowSelectsAWord : Obligations.AtMostOneRowSelectsAWord := by
  intro cw j k hj hk
  have hj : cw &&& opRows[j].mask = opRows[j].pattern := eq_of_beq hj
  have hk : cw &&& opRows[k].mask = opRows[k].pattern := eq_of_beq hk
  apply opRows_disjoint
  calc opRows[j].pattern &&& opRows[k].mask = cw &&& opRows[j].mask &&& opRows[k].mask := by rw [hj]
    _ = cw &&& opRows[k].mask &&& opRows[j].mask := by
      rw [BitVec.and_assoc, BitVec.and_comm opRows[j].mask, ← BitVec.and_assoc]
    _ = opRows[k].pattern &&& opRows[j].mask := by rw [hk]

/-- Settles O5: each word is its format's with the operands named. -/
theorem sampleWordsDecode : Obligations.SampleWordsDecode :=
  ⟨decode_formatC (cap := 16) (by decide), decode_formatA (value := 5) (length := 3) (by decide) (by decide),
    decode_formatAA (value := 0x25) (by decide), by decide, decode_formatG (op := 0xB) (by decide) (by decide) 5#8 0#8,
    decode_formatP 2#8 (n := 256) (by decide)⟩

end Sys2Proof
end

section
/-! The invariant of the machine (`10_state.md` R23 to R26, R31): it holds after reset and every step keeps it, clause by
clause over the streams a command can leave. From its cursor clause: every step but that of GF.POW with base 0 completes,
and an append of length 0 changes nothing; nor does a repeated alignment or fill. -/

namespace Sys2Proof.Machine

/-! ### What a command keeps -/

/-- A command keeps the canonical form of the storage (log 9). -/
theorem Bsp.After.wf {p : Params} {b b' : Bsp} (h : b.After p b') (hb : b.mem.wf = true) : b'.mem.wf = true := by
  cases h with
  | same => exact hb
  | created cap _ => rfl
  | appended v n _ => exact Memory.wf_writeGroup _ _ _ _ (Bsp.wf_grown _ _ _ hb)
  | padded => rwa [Bsp.padded_mem]
  | filled =>
    rw [Bsp.filled_mem, Bsp.padded_mem]
    exact Memory.wf_fillPads _ _ _ _ hb

/-- A command lists no byte at or beyond `LEN` (R24). -/
theorem Bsp.After.within {p : Params} {b b' : Bsp} (h : b.After p b') (hb : b.mem.Within b.len) :
    b'.mem.Within b'.len := by
  cases h with
  | same => exact hb
  | created cap _ => exact fun c hc => absurd hc List.not_mem_nil
  | appended v n hx =>
    have hend := Bsp.appended_pos_le p v n b hx
    rw [Bsp.appended_pos, Bsp.appended_len, ← Bsp.grown_pos b p (b.need n)] at hend
    rw [Bsp.appended_len]
    exact Memory.within_writeGroup _ _ _ _ _ hend (Bsp.within_grown p b _ hx hb)
  | padded => rwa [Bsp.padded_mem, Bsp.padded_len]
  | filled =>
    rw [Bsp.filled_mem, Bsp.filled_len, Bsp.padded_mem, Bsp.padded_len]
    exact Memory.within_fillPads _ _ _ _ _ (by omega) hb

/-- A command keeps `LEN <= BUF_MAX` (R23). -/
theorem Bsp.After.bounded {p : Params} {b b' : Bsp} (h : b.After p b') (hb : p.exceeds b.len = false) :
    p.exceeds b'.len = false := by
  cases h with
  | same => exact hb
  | created cap hx => exact hx
  | appended v n hx =>
    by_cases hle : b.need n ≤ b.len
    · rwa [Bsp.appended_len_of_le hle]
    · rw [Bsp.appended_len_of_gt (by omega)]
      exact (Params.grow_bounds p b.len _ hx).2
  | padded => rwa [Bsp.padded_len]
  | filled => rwa [Bsp.filled_len, Bsp.padded_len]

/-- A command keeps the invariants of the stream. -/
theorem Bsp.After.inv {p : Params} {b b' : Bsp} (h : b.After p b') (hb : b.Inv p) : b'.Inv p :=
  ⟨h.wf hb.canonical, h.within hb.within, h.cursorOk hb.cursor, h.zeroAhead hb.zeroAhead, h.bounded hb.bounded⟩

/-! ### The invariant of the machine -/

/-- Settles O31: the stream a step leaves keeps the stream's invariants, and no step writes tables or parameters. -/
theorem everyStepKeepsTheInvariant : Obligations.EveryStepKeepsTheInvariant := by
  intro s t hs h
  obtain ⟨hafter, hgfu, hparams⟩ := step_after h
  exact ⟨hparams ▸ hafter.inv hs.bsp, hgfu.trans hs.gfu⟩

/-- Settles O32: the fresh stream of one byte, and the tables as reset builds them. -/
theorem resetMeetsTheInvariant : Obligations.ResetMeetsTheInvariant :=
  ⟨⟨rfl, fun _ hc => absurd hc List.not_mem_nil, (Bsp.cursorOk_iff _).2 (Nat.zero_le _),
    fun k _ _ => Memory.sbit_nil k, by decide⟩, rfl⟩

/-- Settles O34: a command leaves a stream and a response, and nothing else changed. -/
theorem noCommandWritesTables : Obligations.NoCommandWritesTables := by
  refine ⟨fun i s t h => ?_, fun s t h => (step_after h).2⟩
  obtain ⟨b, r, rfl⟩ := exec_next h
  exact ⟨rfl, rfl, rfl⟩

/-! ### Completion -/

/-- Where the cursor is inside the storage, so are the written bytes (R25). -/
theorem Bsp.CursorOk.prefixLength_le {b : Bsp} (h : b.CursorOk) : b.prefixLength ≤ b.len := by
  rw [Bsp.cursorOk_iff] at h
  rw [Bsp.prefixLength_eq, ceil8]
  omega

/-- BS.EXTRACT of bytes beyond the storage stops (log 8). -/
theorem exec_bsExtract_of_lt {s : State} (h : s.bsp.len < s.bsp.prefixLength) :
    exec .bsExtract s = .fault .storageOutOfRange := if_neg (by omega)

theorem exists_append_next (v n : Nat) (s : State) : ∃ t, append v n s = .next t := by
  rw [append_eq]
  split <;> exact ⟨_, rfl⟩

/-- A command completes where the cursor is inside the storage, unless it is GF.POW with base 0 (R13, R59). -/
theorem exists_exec_next {i : Instr} {s : State} (hs : s.bsp.CursorOk) (hi : ∀ n, i ≠ .gfPow 0#8 n) :
    ∃ t, exec i s = .next t := by
  cases i with
  | bsCreate cap =>
    rw [exec_bsCreate_eq]
    split <;> exact ⟨_, rfl⟩
  | bsAppend v n => exact exists_append_next v n s
  | bsAppendA v => exact exists_append_next v (bitlen v) s
  | bsExtract => exact ⟨_, exec_bsExtract hs.prefixLength_le⟩
  | bsPad | bsFill | bsLen | bsDump | gfAdd | gfSub | gfMul => exact ⟨_, rfl⟩
  | gfDiv a b =>
    by_cases hb : b = 0#8
    · exact ⟨_, hb ▸ exec_gfDiv_zero a s⟩
    · exact ⟨_, exec_gfDiv a hb s⟩
  | gfPow x n => exact ⟨_, exec_gfPow (fun hx => hi n (hx ▸ rfl)) n s⟩

/-- Settles O33: waiting and IllegalCommand complete, and so does the command of any other word. -/
theorem stepsFromTheInvariantComplete : Obligations.StepsFromTheInvariantComplete := by
  intro s hs hnext
  obtain ⟨-, h⟩ | ⟨cw, rest, i, hc, hd, h⟩ | ⟨cw, rest, e, -, -, h⟩ := step_cases s
  · exact ⟨_, h⟩
  · have hpow : ∀ n, i ≠ .gfPow 0#8 n := fun n hi => hnext cw rest n hc (hi ▸ hd)
    rw [h]
    exact exists_exec_next hs.bsp.cursor hpow
  · exact ⟨_, h⟩

/-- Settles O23: the test of BS.EXTRACT is whether the written bytes end inside the storage. -/
theorem extractPastTheStorageFaults : Obligations.ExtractPastTheStorageFaults := by
  intro s
  change _ ↔ s.bsp.len < ceil8 s.bsp.pos
  rw [← Bsp.prefixLength_eq]
  refine ⟨fun h => ?_, exec_bsExtract_of_lt⟩
  by_contra hle
  rw [exec_bsExtract (Nat.not_lt.1 hle)] at h
  cases h

/-! ### Commands that change nothing -/

/-- The cursor put where it stands. -/
theorem Bsp.seek_pos_self (b : Bsp) : Bsp.seek b.pos b = b := by
  have hbit := b.bitCur.isLt
  have hbyte : b.pos / 8 = b.byteCur := by rw [Bsp.pos]; omega
  have hbitCur : (⟨b.pos % 8, Nat.mod_lt _ (by decide)⟩ : Fin 8) = b.bitCur := by
    apply Fin.ext
    rw [Bsp.pos]
    simp only
    omega
  rw [Bsp.seek, hbyte, hbitCur]

/-- An append of length 0 leaves the stream as it is, where the storage reaches the cursor (R119 (c)). -/
theorem Bsp.appended_zero (p : Params) (v : Nat) {b : Bsp} (h : b.need 0 ≤ b.len) : b.appended p v 0 = b := by
  rw [Bsp.appended, Bsp.grown_of_le b p _ h]
  exact Bsp.seek_pos_self b

/-- Settles O18: the empty group needs no more storage than there is, and moves no cursor. -/
theorem appendOfLengthZeroChangesNothing : Obligations.AppendOfLengthZeroChangesNothing := by
  intro s value hcursor hbounded
  have hneed : s.bsp.need 0 ≤ s.bsp.len := (Bsp.prefixLength_eq s.bsp).ge.trans hcursor.prefixLength_le
  rw [exec_bsAppend, append_of_fits (Params.exceeds_mono hneed hbounded), Bsp.appended_zero _ _ hneed]
  rfl

theorem Bsp.padded_of_bitCur_eq_zero {b : Bsp} (h : b.bitCur = 0) : b.padded = b := if_pos h

@[simp] theorem Bsp.padded_padded (b : Bsp) : b.padded.padded = b.padded :=
  Bsp.padded_of_bitCur_eq_zero (Bsp.padded_bitCur b)

/-- After BS.FILL the cursor is at the end, so a second BS.FILL has no byte to fill (R126 (a)). -/
@[simp] theorem Bsp.filled_filled (b : Bsp) : b.filled.filled = b.filled := by
  have hpad : b.filled.padded = b.filled := Bsp.padded_of_bitCur_eq_zero rfl
  have hnone : b.filled.len - b.filled.byteCur = 0 := Nat.sub_self _
  rw [Bsp.filled, hpad, hnone]
  rfl

/-- Settles O21: aligning and filling the stream are idempotent, and the response is the same. -/
theorem padAndFillAreIdempotent : Obligations.PadAndFillAreIdempotent := by
  intro s t
  refine ⟨fun h => ?_, fun h => ?_⟩
  · rw [exec_bsPad] at h
    injection h with h
    subst h
    rw [exec_bsPad, State.withResponse_bsp, State.withBsp_bsp, Bsp.padded_padded]
    rfl
  · rw [exec_bsFill] at h
    injection h with h
    subst h
    rw [exec_bsFill, State.withResponse_bsp, State.withBsp_bsp, Bsp.filled_filled]
    rfl

end Sys2Proof.Machine
end

section
/-! A step and its response (`30_encoding.md` R80 to R87, `60_exceptions.md` R221, R226): one word taken, one response
emitted, whatever stood before it; which responses a command can give; the header that shows one. -/

namespace Sys2Proof.Machine

/-! ### The step -/

/-- Settles O7: the case of the step on a word that decodes. -/
theorem stepRunsTheDecodedInstruction : Obligations.StepRunsTheDecodedInstruction :=
  fun _ _ _ _ hc hd => step_of_decode_ok hc hd

/-- With no word presented the block waits (R241). -/
theorem step_of_commands_eq_nil {s : State} (h : s.commands = []) : step s = .next s := by
  simp only [step, h, waitForCommand]

/-- Settles O8: the case of the step with no word. -/
theorem stepWaitsWithoutACommand : Obligations.StepWaitsWithoutACommand := fun _ => step_of_commands_eq_nil

/-- A command's outcome is the same after any two responses, or none (R80). -/
theorem exec_eq_of_withResponse_eq {s s' : State} (h : ∀ r, s.withResponse r = s'.withResponse r) (i : Instr) :
    exec i s = exec i s' := by
  rw [← exec_withResponse i s .done, h, exec_withResponse]

/-- A step on a presented word does not read the response before it (R226). -/
theorem step_response_irrelevant {s : State} {cw : CommandWord} {rest : List CommandWord}
    (hc : s.commands = cw :: rest) (q : Option Response) : step { s with response := q } = step s := by
  cases hd : decode cw with
  | ok i =>
    rw [step_of_decode_ok hc hd, step_of_decode_ok (s := { s with response := q }) hc hd]
    exact exec_eq_of_withResponse_eq (fun _ => rfl) i
  | error e =>
    rw [step_of_decode_error hc hd, step_of_decode_error (s := { s with response := q }) hc hd]
    rfl

/-- Settles O9: a command takes no word from the port itself and leaves a response, and an illegal word has one too. -/
theorem stepTakesOneWordAndAnswersOnce : Obligations.StepTakesOneWordAndAnswersOnce := by
  intro s t cw rest hc h
  have hport : t.commands = rest ∧ ∃ r, t.response = some r := by
    cases hd : decode cw with
    | ok i =>
      rw [step_of_decode_ok hc hd] at h
      obtain ⟨b, r, rfl⟩ := exec_next h
      exact ⟨rfl, r, rfl⟩
    | error e =>
      rw [step_of_decode_error hc hd] at h
      injection h with h
      subst h
      exact ⟨rfl, _, rfl⟩
  exact ⟨hport.1, hport.2, fun q => (step_response_irrelevant hc q).trans h⟩

/-! ### Status codes -/

theorem Status.ofCode_code (st : Status) : Status.ofCode st.code = some st := by cases st <;> rfl

/-- The codes 0x6 to 0xD are unassigned (R221). -/
theorem Status.ofCode_unassigned : ∀ c : BitVec 4, 0x6 ≤ c.toNat → c.toNat ≤ 0xD → Status.ofCode c = none := by
  decide

/-- What the word decodes to where a step on it emits the status (R221). -/
def EmittedFor (cw : CommandWord) : Status → Prop
  | .ok => True
  | .divisionByZero => ∃ a, decode cw = .ok (.gfDiv a 0#8)
  | .capacityExceeded => (∃ cap, decode cw = .ok (.bsCreate cap)) ∨
      (∃ value length, decode cw = .ok (.bsAppend value length)) ∨ ∃ value, decode cw = .ok (.bsAppendA value)
  | .illegalCommand => ∃ e, decode cw = .error e
  | .unsupportedMode | .unsupportedVersion | .unsupportedErrorCorrectionLevel | .invalidCharacter => False

/-- A word whose command raises an error is one the error is emitted for. -/
theorem Raises.emittedFor {s : State} {cw : CommandWord} {i : Instr} {e : Status} (h : Raises s i e)
    (hd : decode cw = .ok i) : EmittedFor cw e := by
  cases h with
  | bsCreate _ => exact .inl ⟨_, hd⟩
  | bsAppend _ => exact .inr (.inl ⟨_, _, hd⟩)
  | bsAppendA _ => exact .inr (.inr ⟨_, hd⟩)
  | gfDiv a => exact ⟨a, hd⟩

/-- A step emits a status only on a word it is emitted for. -/
theorem step_emittedFor {s t : State} {cw : CommandWord} {rest : List CommandWord} {r : Response}
    (hc : s.commands = cw :: rest) (h : step s = .next t) (hr : t.response = some r) : EmittedFor cw r.status := by
  cases hd : decode cw with
  | ok i =>
    rw [step_of_decode_ok hc hd] at h
    by_cases hok : r.status = .ok
    · rw [hok]
      trivial
    · obtain ⟨e, he, rfl, -⟩ := exec_not_ok h hr hok
      exact he.emittedFor hd
  | error e =>
    rw [step_of_decode_error hc hd] at h
    injection h with h
    subst h
    cases hr
    exact ⟨e, hd⟩

/-- The block emits four of the eight codes (R221). -/
theorem EmittedFor.code {cw : CommandWord} {st : Status} (h : EmittedFor cw st) :
    st.code = 0x0#4 ∨ st.code = 0x1#4 ∨ st.code = 0xE#4 ∨ st.code = 0xF#4 := by
  cases st with
  | ok | divisionByZero | capacityExceeded | illegalCommand => simp [Status.code]
  | unsupportedMode | unsupportedVersion | unsupportedErrorCorrectionLevel | invalidCharacter => exact h.elim

/-- Settles O11: the codes by their table, and the words each status is emitted for. -/
theorem statusCodesAndWhoRaisesThem : Obligations.StatusCodesAndWhoRaisesThem := by
  refine ⟨rfl, rfl, rfl, rfl, rfl, rfl, rfl, rfl, Status.ofCode_code, Status.ofCode_unassigned,
    fun s t cw rest r hc h hr => ?_⟩
  have hemitted := step_emittedFor hc h hr
  exact ⟨hemitted.code, fun hst => by rwa [hst] at hemitted, fun hst => by rwa [hst] at hemitted,
    fun hst => by rwa [hst] at hemitted⟩

/-! ### Responses -/

/-- The responses a command can give in the state `s` (R87). -/
inductive Answers (s : State) : Instr → Response → Prop where
  /-- an error -/
  | error {i : Instr} {e : Status} (h : Raises s i e) : Answers s i (.error e)
  /-- a command that writes the stream -/
  | done {i : Instr} (h : readsOnly i = false) : Answers s i .done
  /-- a GFU command -/
  | byte {i : Instr} (h : fieldCommand i = true) (v : Byte) : Answers s i (.value v.toNat)
  /-- BS.EXTRACT -/
  | extract (h : s.bsp.prefixLength ≤ s.bsp.len) :
      Answers s .bsExtract ⟨.ok, 0, s.bsp.prefixLength, s.bsp.mem.read 0 s.bsp.prefixLength⟩
  /-- BS.LEN -/
  | len : Answers s .bsLen (.value s.bsp.len)
  /-- BS.DUMP -/
  | dump : Answers s .bsDump ⟨.ok, s.bsp.bitCur, s.bsp.len, s.bsp.mem.read 0 s.bsp.len⟩

/-- An outcome known to carry a response the command can give. -/
theorem Answers.of_exec_eq {i : Instr} {s t u : State} {r : Response} (ha : Answers s i r) (h : exec i s = .next t)
    (heq : exec i s = .next (u.withResponse r)) : ∃ q, t.response = some q ∧ Answers s i q := by
  rw [heq] at h
  injection h with h
  exact ⟨r, h ▸ State.withResponse_response u r, ha⟩

/-- Every response a command gives is one of these. -/
theorem exec_answers {i : Instr} {s t : State} (h : exec i s = .next t) :
    ∃ r, t.response = some r ∧ Answers s i r := by
  by_cases hraise : ∃ e, Raises s i e
  · obtain ⟨e, he⟩ := hraise
    exact (Answers.error he).of_exec_eq h he.exec_eq
  cases i with
  | bsCreate cap =>
    have hfits : s.params.exceeds cap = false := Bool.eq_false_iff.2 fun hx => hraise ⟨_, .bsCreate hx⟩
    exact (Answers.done rfl).of_exec_eq h (exec_bsCreate_of_fits hfits)
  | bsAppend v n =>
    have hfits : s.params.exceeds (s.bsp.need n) = false := Bool.eq_false_iff.2 fun hx => hraise ⟨_, .bsAppend hx⟩
    exact (Answers.done rfl).of_exec_eq h (append_of_fits hfits)
  | bsAppendA v =>
    have hfits : s.params.exceeds (s.bsp.need (bitlen v)) = false :=
      Bool.eq_false_iff.2 fun hx => hraise ⟨_, .bsAppendA hx⟩
    exact (Answers.done rfl).of_exec_eq h (append_of_fits hfits)
  | bsPad => exact (Answers.done rfl).of_exec_eq h (exec_bsPad s)
  | bsFill => exact (Answers.done rfl).of_exec_eq h (exec_bsFill s)
  | bsExtract =>
    have hle : s.bsp.prefixLength ≤ s.bsp.len := by
      by_contra hlt
      rw [exec_bsExtract_of_lt (Nat.not_le.1 hlt)] at h
      cases h
    exact (Answers.extract hle).of_exec_eq h (exec_bsExtract hle)
  | bsLen => exact Answers.len.of_exec_eq h (exec_bsLen s)
  | bsDump => exact Answers.dump.of_exec_eq h (exec_bsDump s)
  | gfAdd | gfSub | gfMul | gfDiv | gfPow =>
    obtain rfl | ⟨v, rfl⟩ := exec_fieldCommand_next rfl h
    · obtain ⟨e, he, -⟩ := exec_not_ok h rfl (by decide)
      exact absurd ⟨e, he⟩ hraise
    · exact ⟨_, rfl, .byte rfl v⟩

/-- The response emitted is one the command can give. -/
theorem exec_answers_response {i : Instr} {s t : State} {r : Response} (h : exec i s = .next t)
    (hr : t.response = some r) : Answers s i r := by
  obtain ⟨q, hq, hanswers⟩ := exec_answers h
  rw [hr] at hq
  exact Option.some.inj hq ▸ hanswers

/-- `BITC` is the bit cursor for BS.DUMP and 0 otherwise (R86). -/
theorem Answers.bitc_eq {i : Instr} {s : State} {r : Response} (h : Answers s i r) :
    r.bitc = if i = .bsDump then s.bsp.bitCur else 0 := by
  by_cases hdump : i = .bsDump
  · subst hdump
    cases h with
    | error h | done h | byte h => cases h
    | dump => rfl
  · rw [if_neg hdump]
    cases h with
    | error | done | byte | extract | len => rfl
    | dump => exact absurd rfl hdump

/-- There are `VAL` data bytes for BS.EXTRACT and BS.DUMP and none otherwise (R87). -/
theorem Answers.data_length {i : Instr} {s : State} {r : Response} (h : Answers s i r) :
    r.data.length = if i = .bsExtract ∨ i = .bsDump then r.val else 0 := by
  by_cases hread : i = .bsExtract ∨ i = .bsDump
  · rw [if_pos hread]
    cases h with
    | error h | done h | byte h => obtain rfl | rfl := hread <;> cases h
    | extract | dump => exact Memory.read_length _ _ _
    | len => obtain h | h := hread <;> cases h
  · rw [if_neg hread]
    cases h with
    | error | done | byte | len => rfl
    | extract => exact absurd (.inl rfl) hread
    | dump => exact absurd (.inr rfl) hread

theorem Memory.eq_get_of_read_getElem? {m : Memory} {n k : Nat} {b : Byte} (h : (m.read 0 n)[k]? = some b) :
    b = m.get k := by
  have hk : k < n := Memory.read_length m 0 n ▸ (List.getElem?_eq_some_iff.1 h).1
  rw [Memory.read_getElem? _ _ _ _ hk, Nat.zero_add] at h
  exact (Option.some.inj h).symm

/-- The data bytes are those of the storage, in ascending index (R86). -/
theorem Answers.eq_get_of_data_getElem? {i : Instr} {s : State} {r : Response} (h : Answers s i r) {k : Nat} {b : Byte}
    (hk : r.data[k]? = some b) : b = s.bsp.mem.get k := by
  cases h with
  | error | done | byte | len => cases hk
  | extract | dump => exact Memory.eq_get_of_read_getElem? hk

/-- A response's value is a length within the storage, or that of a byte. -/
theorem Answers.val_le {i : Instr} {s : State} {r : Response} (h : Answers s i r) :
    r.val ≤ s.bsp.len ∨ r.val ≤ 255 := by
  cases h with
  | error | done => exact .inr (Nat.zero_le _)
  | byte _ v => exact .inr (Nat.le_of_lt_succ v.isLt)
  | extract h => exact .inl h
  | len | dump => exact .inl (Nat.le_refl _)

/-- The header as a number (R86). -/
theorem Response.header_toNat (r : Response) :
    r.header.toNat = r.status.code.toNat * 2 ^ 36 + r.bitc.val * 2 ^ 32 + r.val % 2 ^ 32 := by
  have hbitc := r.bitc.isLt
  rw [Response.header, toNat_append_eq_add, toNat_append_eq_add, toNat_append_eq_add, BitVec.toNat_ofNat,
    toNat_ofNat_of_lt hbitc, BitVec.toNat_ofNat]
  omega

/-- Settles O37: the header field by field, and each command's response by what the command answers. -/
theorem responseHeaderAndCount : Obligations.ResponseHeaderAndCount := by
  refine ⟨Response.header_toNat, fun i s t r h hr => ?_, fun i s t h => ?_⟩
  · have hanswers := exec_answers_response h hr
    exact ⟨hanswers.bitc_eq, hanswers.data_length, fun k b hk => hanswers.eq_get_of_data_getElem? hk⟩
  · obtain ⟨r, hr, -⟩ := exec_answers h
    exact ⟨r, hr⟩

/-- The header's fields give back the status, `BITC` and, where it fits its field, `VAL` (R86). -/
theorem Response.header_fields (r : Response) (hval : r.val < 2 ^ 32) :
    r.header.extractLsb' 36 4 = r.status.code ∧ (r.header.extractLsb' 32 3).toNat = r.bitc.val ∧
      (r.header.extractLsb' 0 32).toNat = r.val := by
  have hstatus := r.status.code.isLt
  have hbitc := r.bitc.isLt
  have hheader := r.header_toNat
  refine ⟨BitVec.eq_of_toNat_eq ?_, ?_, ?_⟩ <;>
    simp only [BitVec.extractLsb'_toNat, Nat.shiftRight_eq_div_pow, hheader] <;> omega

/-- Settles O38: a value is a length within `BUF_MAX` or that of a byte, so it fits its field. -/
theorem emittedValuesFitTheHeader : Obligations.EmittedValuesFitTheHeader := by
  intro s t cw rest r m hs hmax hm hc h hr
  have hlen : s.bsp.len ≤ m := by
    by_contra hlt
    have hx := (Params.exceeds_iff_of_bufMax hmax s.bsp.len).2 (by omega)
    rw [hs.bsp.bounded] at hx
    cases hx
  have hval : r.val ≤ s.bsp.len ∨ r.val ≤ 255 := by
    cases hd : decode cw with
    | ok i =>
      rw [step_of_decode_ok hc hd] at h
      exact (exec_answers_response h hr).val_le
    | error e =>
      rw [step_of_decode_error hc hd] at h
      injection h with h
      subst h
      cases hr
      exact .inr (Nat.zero_le _)
  have hfits : r.val < 2 ^ 32 := by omega
  obtain ⟨hstatus, hbitc, hfield⟩ := r.header_fields hfits
  exact ⟨hfits, hstatus ▸ Status.ofCode_code _, hbitc, hfield⟩

end Sys2Proof.Machine
end

section
/-! What an outcome depends on: a run of appends on the stream and the parameters alone (`40_bitstream.md` R113 (a),
`70_reset_and_hazards.md` R257), a GFU command on its operands alone, the tables being built (`41_field.md` R152), and the
growth step on the policy's answers alone, which a finite table can hold (R116, log 5). -/

namespace Sys2Proof.Machine

/-! ### BS.CREATE and appends after it -/

/-- The first append of a run: beyond `BUF_MAX` it ends the run, within it the rest runs on the stream it leaves. -/
theorem runAppends_cons_eq (v n : Nat) (rest : List (Nat × Nat)) (s : State) :
    runAppends ((v, n) :: rest) s = if s.params.exceeds (s.bsp.need n) then none
      else runAppends rest ((s.withBsp (s.bsp.appended s.params v n)).withResponse .done) := by
  cases hx : s.params.exceeds (s.bsp.need n) with
  | true =>
    have hraise : Response.error .capacityExceeded ≠ .done := by decide
    simp [runAppends, exec_bsAppend, append_of_exceeds v hx, hraise]
  | false => simp [runAppends, exec_bsAppend, append_of_fits hx]

/-- The stream a run of appends leaves depends on the stream before it and the parameters alone. -/
theorem runAppends_bsp_congr (groups : List (Nat × Nat)) {s s' : State} (hbsp : s.bsp = s'.bsp)
    (hparams : s.params = s'.params) :
    (runAppends groups s).map (fun u => u.bsp) = (runAppends groups s').map (fun u => u.bsp) := by
  induction groups generalizing s s' with
  | nil => exact congrArg some hbsp
  | cons g rest ih =>
    obtain ⟨v, n⟩ := g
    rw [runAppends_cons_eq, runAppends_cons_eq, hbsp, hparams]
    split
    · rfl
    · exact ih rfl hparams

/-- BS.CREATE answers OK only within `BUF_MAX` (R112). -/
theorem fits_of_exec_bsCreate_done {cap : Nat} {s t : State} (h : exec (.bsCreate cap) s = .next t)
    (hr : t.response = some .done) : s.params.exceeds cap = false := by
  rw [exec_bsCreate_eq] at h
  split at h
  · injection h with h
    subst h
    cases hr
  · next hx => exact Bool.eq_false_iff.2 hx

/-- Settles O28: both runs start from the same fresh stream. -/
theorem createForgetsTheOldStream : Obligations.CreateForgetsTheOldStream := by
  intro s s' t t' cap groups hparams h h' hr
  have hfits' : s'.params.exceeds cap = false := hparams ▸ fits_of_exec_bsCreate_done h hr
  obtain rfl := exec_bsCreate_done h hr
  rw [exec_bsCreate_of_fits hfits'] at h'
  injection h' with h'
  subst h'
  exact ⟨rfl, runAppends_bsp_congr groups rfl hparams⟩

/-! ### GFU commands -/

/-- Settles O51: each command's response, computed with the tables of reset. -/
theorem fieldResponsesDependOnOperandsOnly : Obligations.FieldResponsesDependOnOperandsOnly := by
  intro i hi
  cases i with
  | gfAdd a b => exact .inr ⟨_, fun s _ => exec_gfAdd a b s⟩
  | gfSub a b => exact .inr ⟨_, fun s _ => exec_gfSub a b s⟩
  | gfMul a b => exact .inr ⟨.value (Gfu.reset.mul a b).toNat, fun s hs => hs ▸ exec_gfMul a b s⟩
  | gfDiv a b =>
    by_cases hb : b = 0#8
    · exact .inr ⟨_, fun s _ => hb ▸ exec_gfDiv_zero a s⟩
    · exact .inr ⟨.value (Gfu.reset.div a b hb).toNat, fun s hs => hs ▸ exec_gfDiv a hb s⟩
  | gfPow x n =>
    by_cases hx : x = 0#8
    · exact .inl ⟨n, hx ▸ rfl⟩
    · exact .inr ⟨.value (Gfu.reset.pow x n hx).toNat, fun s hs => hs ▸ exec_gfPow hx n s⟩
  | bsCreate | bsAppend | bsAppendA | bsPad | bsFill | bsExtract | bsLen | bsDump => cases hi

/-! ### The growth policy -/

/-- The entry of a growth table that has the policy's answer for one growth. -/
def growEntryOf (policy : Nat → Nat → Nat) (q : Nat × Nat) : GrowEntry := ⟨q.1, q.2, policy q.1 q.2⟩

theorem Params.capped_of_le {p : Params} {n : Nat} (h : ∀ m, p.bufMax = some m → n ≤ m) : p.capped n = n := by
  unfold Params.capped
  split
  · rfl
  · next m hm => exact Nat.min_eq_left (h m hm)

/-- The table has an entry for every growth asked for, and only answers of the policy. -/
theorem find?_growEntryOf (policy : Nat → Nat → Nat) {asked : List (Nat × Nat)} {q : Nat × Nat} (hq : q ∈ asked) :
    (asked.map (growEntryOf policy)).find? (fun e => e.len == q.1 && e.need == q.2) = some (growEntryOf policy q) := by
  rw [List.find?_map]
  cases hf : asked.find? ((fun e => e.len == q.1 && e.need == q.2) ∘ growEntryOf policy) with
  | none => exact absurd (List.find?_eq_none.1 hf q hq) (by simp [growEntryOf])
  | some q' =>
    have hfound := List.find?_some hf
    simp only [growEntryOf, Function.comp_apply, Bool.and_eq_true, beq_iff_eq] at hfound
    rw [Prod.ext hfound.1 hfound.2]
    rfl

/-- Settles O52: the table of the policy's answers at the growths asked for. -/
theorem everyGrowthPolicyIsSomeTable : Obligations.EveryGrowthPolicyIsSomeTable := by
  intro policy asked bufMax hpolicy
  refine ⟨asked.map (growEntryOf policy), fun q hq => ?_⟩
  obtain ⟨hneed, hmax⟩ := hpolicy q hq
  rw [Params.grow, find?_growEntryOf policy hq]
  change max q.2 (Params.capped _ (policy q.1 q.2)) = _
  rw [Params.capped_of_le hmax, Nat.max_eq_right hneed]

end Sys2Proof.Machine
end

section
/-! The host's encoder and debug string (`42_host_sequences.md` R200 to R202, R206): when packing a text into groups
fails, the bits the groups append and that each fits its width, and the digits of a dump. -/

namespace Sys2Proof.HostSeq

open Sys2Proof.Machine

/-! ### Packing a text, group by group -/

theorem packGroups_single {c : Char} {v : Nat} (hc : charValue c = some v) :
    packGroups [c] = ⟨[.bsAppend v 6], none⟩ := by
  simp only [packGroups, hc]

theorem packGroups_single_of_none {c : Char} (hc : charValue c = none) :
    packGroups [c] = ⟨[], some .invalidCharacter⟩ := by
  simp only [packGroups, hc]

theorem packGroups_pair {c d : Char} {v w : Nat} (rest : List Char) (hc : charValue c = some v)
    (hd : charValue d = some w) :
    packGroups (c :: d :: rest) =
      ⟨.bsAppend (v * 45 + w) 11 :: (packGroups rest).commands, (packGroups rest).failure⟩ := by
  simp only [packGroups, hc, hd]

/-- A pair that holds a character without a value ends the packing (R201 (d)). -/
theorem packGroups_pair_of_none {c d : Char} (rest : List Char) (h : charValue c = none ∨ charValue d = none) :
    packGroups (c :: d :: rest) = ⟨[], some .invalidCharacter⟩ := by
  obtain hc | hd := h
  · simp only [packGroups, hc]
  · cases hc : charValue c <;> simp only [packGroups, hc, hd]

/-- Of a pair that is no two symbols one character has no value. -/
theorem charValue_eq_none_of_pair {c d : Char}
    (h : ∀ v w, charValue c = some v → charValue d = some w → False) : charValue c = none ∨ charValue d = none := by
  cases hc : charValue c with
  | none => exact .inl rfl
  | some v => exact .inr (Option.eq_none_iff_forall_ne_some.2 fun w hd => h v w hc hd)

/-- Packing fails exactly when a character has no value, and with no other error (R201 (d)). -/
theorem packGroups_failure (data : List Char) :
    (packGroups data).failure = if ∃ c ∈ data, charValue c = none then some .invalidCharacter else none := by
  induction data using packGroups.induct with
  | case1 => simp [packGroups]
  | case2 c v hc => simp [packGroups_single hc, hc]
  | case3 c hc => simp [packGroups_single_of_none hc, hc]
  | case4 c d rest v w hd hc ih => simp [packGroups_pair rest hc hd, hc, hd, ih]
  | case5 c d rest hpair =>
    have hnone := charValue_eq_none_of_pair hpair
    have hexists : ∃ e ∈ c :: d :: rest, charValue e = none :=
      hnone.elim (fun hc => ⟨c, by simp, hc⟩) (fun hd => ⟨d, by simp, hd⟩)
    rw [packGroups_pair_of_none rest hnone, if_pos hexists]

theorem packGroups_failure_eq_none {data : List Char} (h : ∀ c ∈ data, charValue c ≠ none) :
    (packGroups data).failure = none := by
  rw [packGroups_failure, if_neg]
  rintro ⟨c, hc, hnone⟩
  exact h c hc hnone

/-- The 45 symbols have the values 0 to 44 (R190). -/
theorem charValue_lt {c : Char} {v : Nat} (h : charValue c = some v) : v < 45 :=
  (List.findIdx?_eq_some_iff_getElem.1 h).1

/-- Each group's value fits its width: the largest pair is 44 * 45 + 44 < 2^11, the largest single 44 < 2^6. -/
theorem packGroups_value_lt (data : List Char) {value length : Nat}
    (h : Instr.bsAppend value length ∈ (packGroups data).commands) : value < 2 ^ length := by
  induction data using packGroups.induct with
  | case1 => cases h
  | case2 c v hc =>
    rw [packGroups_single hc, List.mem_singleton, Instr.bsAppend.injEq] at h
    obtain ⟨rfl, rfl⟩ := h
    exact (charValue_lt hc).trans (by decide)
  | case3 c hc =>
    rw [packGroups_single_of_none hc] at h
    cases h
  | case4 c d rest v w hd hc ih =>
    rw [packGroups_pair rest hc hd, List.mem_cons, Instr.bsAppend.injEq] at h
    obtain ⟨rfl, rfl⟩ | h := h
    · have hv := charValue_lt hc
      have hw := charValue_lt hd
      omega
    · exact ih h
  | case5 c d rest hpair =>
    rw [packGroups_pair_of_none rest (charValue_eq_none_of_pair hpair)] at h
    cases h

/-- The groups of a text of the alphabet: 11 bits per pair, 6 for a single (R202 (b)). -/
theorem appendedBits_packGroups {data : List Char} (h : ∀ c ∈ data, charValue c ≠ none) :
    appendedBits (packGroups data).commands = 11 * (data.length / 2) + 6 * (data.length % 2) := by
  induction data using packGroups.induct with
  | case1 => rfl
  | case2 c v hc => simp [packGroups_single hc, appendedBits]
  | case3 c hc => exact absurd hc (h c (by simp))
  | case4 c d rest v w hd hc ih =>
    have hrest := ih fun e he => h e (by simp [he])
    rw [packGroups_pair rest hc hd, appendedBits, hrest, List.length_cons, List.length_cons]
    omega
  | case5 c d rest hpair =>
    obtain hc | hd := charValue_eq_none_of_pair hpair
    · exact absurd hc (h c (by simp))
    · exact absurd hd (h d (by simp))

/-! ### The encoder -/

/-- For version 1 and level M: the header, the groups, and the trailer where packing did not fail (R200). -/
theorem encAlnum_eq (capacity : Int → EcLevel → Nat) (data : List Char) :
    encAlnum capacity data 1 .M =
      ⟨header (capacity 1 .M) data.length ++ (packGroups data).commands ++
        (if (packGroups data).failure = none then trailer else []), (packGroups data).failure⟩ := by
  rw [encAlnum, if_neg (not_not_intro rfl), if_neg (not_not_intro rfl)]
  cases hf : (packGroups data).failure <;> simp [hf]

/-- Settles O54: the two tests before any command, then the failure of the packing, the header before it. -/
theorem alphanumericEncoderFailures : Obligations.AlphanumericEncoderFailures := by
  intro capacity data version level
  refine ⟨fun h => if_pos h, fun hv hl => ?_, fun hv hl => ?_⟩
  · rw [encAlnum, if_neg (not_not_intro hv), if_pos hl]
  · subst hv hl
    rw [encAlnum_eq]
    refine ⟨?_, ?_, _, rfl⟩ <;> simp [packGroups_failure]

theorem appendedBits_append (xs ys : List Instr) : appendedBits (xs ++ ys) = appendedBits xs + appendedBits ys := by
  induction xs using appendedBits.induct with
  | case1 => simp [appendedBits]
  | case2 v n rest ih => simp [appendedBits, ih, Nat.add_assoc]
  | case3 i rest h ih => simpa [appendedBits] using ih

theorem appendedBits_header (cap m : Nat) : appendedBits (header cap m) = 4 + 9 := rfl

theorem appendedBits_trailer : appendedBits trailer = 4 := rfl

/-- Settles O55: the bits of the header, the groups and the trailer. -/
theorem alphanumericEncoderBits : Obligations.AlphanumericEncoderBits := by
  intro capacity data hdata
  rw [encAlnum_eq, packGroups_failure_eq_none hdata]
  refine ⟨?_, fun v n h => packGroups_value_lt data h, _, rfl⟩
  rw [if_pos rfl, appendedBits_append, appendedBits_append, appendedBits_header, appendedBits_packGroups hdata,
    appendedBits_trailer]
  omega

/-! ### The debug string -/

@[simp] theorem digits_length (b : Byte) : (digits b).length = 8 := rfl

theorem digits_getElem? (b : Byte) {j : Nat} (hj : j < 8) :
    (digits b)[j]? = some (if b.toNat / 2 ^ (7 - j) % 2 = 1 then '1' else '0') := by
  simp [digits, hj, byteBit, bit_eq_true_iff]

theorem flatMap_digits_length (data : List Byte) : (data.flatMap digits).length = 8 * data.length := by
  simp [List.length_flatMap, Nat.mul_comm]

/-- Every byte has 8 digits, so those of byte `i` start at character `8*i`. -/
theorem flatMap_digits_getElem? (data : List Byte) {i j : Nat} {b : Byte} (hj : j < 8) (h : data[i]? = some b) :
    (data.flatMap digits)[8 * i + j]? = (digits b)[j]? := by
  induction data generalizing i with
  | nil => cases h
  | cons a rest ih =>
    rw [List.flatMap_cons]
    cases i with
    | zero =>
      cases h
      rw [Nat.mul_zero, Nat.zero_add, List.getElem?_append_left hj]
    | succ i =>
      rw [List.getElem?_append_right (by rw [digits_length]; omega), digits_length,
        show 8 * (i + 1) + j - 8 = 8 * i + j by omega]
      exact ih h

/-- Settles O56: 8 digits per byte, each the bit of its weight. -/
theorem plainDebugStringIsTheStoredBits : Obligations.PlainDebugStringIsTheStoredBits := by
  intro r
  refine ⟨flatMap_digits_length r.data, fun i j b hj h => ?_⟩
  rw [← digits_getElem? b hj]
  exact flatMap_digits_getElem? r.data hj h

end Sys2Proof.HostSeq
end
